-- ==== Sys2Proof/Word.lean ====
section
/-! DEFINITION. The word types of the block. Rule R11 (00_scope.md): a byte is an unsigned integer
0..255 and is the smallest unit of every stream, buffer and field; every field is unsigned. -/

namespace Sys2Proof

/-- One byte of a stream, buffer or field (R11). -/
abbrev Byte := BitVec 8

/-- A checksum value (R8, R81): 16 bits, every value legal (R121). -/
abbrev Half := BitVec 16

/-- An object id or an address (R22, R23, R125): 32 bits, every value legal. -/
abbrev Word := BitVec 32

end Sys2Proof
end

