-- ==== Sys2Proof/Config.lean ====
section
/-! DEFINITION. The configuration record `cfg` of rule R7 (00_scope.md): the protocol constants the
source leaves to the device firmware, and the checksum function of rule R8. -/

namespace Sys2Proof

/-- The checksum function `CK` of rule R8 when it is the device's own: a total function from byte
sequences to 16 bits of which nothing else is known (R5, decision D5). It has no body that a proof
could use, so a statement about a configuration with `Checksum.external` holds for every `CK`. -/
opaque Config.externalCk : List Byte → Half

/-- Which function `CK` is (R8). `external` is the parameter the spec leaves open; the other two are
the functions the spec defines for its vectors, so that those can be evaluated. -/
inductive Checksum where
  /-- the device's function, nothing assumed of it (R8, D5) -/
  | external
  /-- `SUM16` of 95_test_vectors.md section 0.1: the sum of the bytes modulo 65536 -/
  | sum16
  /-- `CK_G` of 93_implementation_defined.md G2 (PRESUMED: the family's, not in the source) -/
  | crcG
  deriving DecidableEq, Repr

/-- The fields of `cfg` (R7). -/
structure Params where
  /-- `START`, the frame-start token (R100) -/
  start : Byte
  /-- `ESC`, the escape token (R100) -/
  esc : Byte
  /-- `CMD_READ` (R80) -/
  cmdRead : Byte
  /-- `CMD_WRITE` (R80) -/
  cmdWrite : Byte
  /-- `CMD_LONG_WRITE` (R80) -/
  cmdLongWrite : Byte
  /-- `CMD_RESPONSE` (R80) -/
  cmdResponse : Byte
  /-- `CMD_LONG_RESPONSE` (R80) -/
  cmdLongResponse : Byte
  /-- `CMD_EXTRA`, a finite set of bytes, held in rising order so that equal sets are equal lists (R80) -/
  cmdExtra : List Byte
  /-- the numeric value of the sentinel `CMD_NONE` (R80, D10) -/
  cmdNone : Byte
  /-- `FT_PLANT`, the numeric value of the plant tag (R27, D4) -/
  ftPlant : Nat
  /-- `CK` (R8) -/
  ck : Checksum
  /-- `BUF_CAP`, the capacity of an accumulation buffer (R33, D18) -/
  bufCap : Nat
  deriving DecidableEq, Repr

/-- The five named command codes (R80). -/
def Params.named (p : Params) : List Byte :=
  [p.cmdRead, p.cmdWrite, p.cmdLongWrite, p.cmdResponse, p.cmdLongResponse]

/-- The constraints of rule R7's table. A `cfg` that breaks one is outside the spec (D2, D3). -/
abbrev Params.Valid (p : Params) : Prop :=
  p.start ≠ p.esc ∧
  p.named.Nodup ∧
  (p.cmdExtra.map BitVec.toNat).Pairwise (· < ·) ∧
  (∀ x ∈ p.cmdExtra, x ∉ p.named) ∧
  p.cmdNone ∉ p.named ∧ p.cmdNone ∉ p.cmdExtra ∧
  1 ≤ p.ftPlant ∧
  65541 ≤ p.bufCap

/-- A configuration: the fields of `cfg` with the proof that they meet rule R7's constraints, so that
a configuration outside the spec cannot be written down. -/
structure Cfg extends Params where
  /-- the constraints of rule R7 hold -/
  valid : toParams.Valid
  deriving DecidableEq, Repr

end Sys2Proof
end

