-- ==== Sys2Proof/Machine/Checksum.lean ====
section
/-! DEFINITION. The checksum function `CK` of a configuration (R8). The block calls it and does not
define it (R5); the two concrete functions are those the spec gives for its vectors. -/

namespace Sys2Proof.Machine

/-- `SUM16` (95_test_vectors.md section 0.1): the sum of the bytes modulo 65536. -/
def sum16 (s : List Byte) : Half :=
  BitVec.ofNat 16 (s.foldl (fun acc b => acc + b.toNat) 0)

/-- One shift of `CK_G` (G2): when bit 15 is 1, shift left and xor with 0x1021; else shift left. -/
def crcShift (crc : Half) : Half :=
  if crc.getLsbD 15 then (crc <<< 1) ^^^ 0x1021#16 else crc <<< 1

/-- `n` shifts. -/
def crcShifts : Nat → Half → Half
  | 0, crc => crc
  | n + 1, crc => crcShifts n (crcShift crc)

/-- One byte of `CK_G` (G2): xor the byte into the high half, then eight shifts. -/
def crcByte (crc : Half) (x : Byte) : Half :=
  crcShifts 8 (crc ^^^ (x.setWidth 16 <<< 8))

/-- `CK_G` (93_implementation_defined.md G2): initial value 0xFFFF, a zero byte added to an input of
odd length. PRESUMED: the family's function, not in the source (log entry 3). -/
def crcG (s : List Byte) : Half :=
  (if s.length % 2 = 1 then s ++ [0#8] else s).foldl crcByte 0xFFFF#16

/-- `CK(s)` of a configuration (R8). -/
def checksum : Checksum → List Byte → Half
  | .external, s => Config.externalCk s
  | .sum16, s => sum16 s
  | .crcG, s => crcG s

end Sys2Proof.Machine
end

