-- ==== Sys2Proof/Machine/Parameters.lean ====
section
/-! DEFINITION. The configuration the machine holds after reset: configuration G of
95_test_vectors.md section 0.1. PRESUMED (log entries 1 to 4): the source gives no numeric value for
any of these but the standard tag; the tokens and codes are also the `match` values of
spec/opcode_table.json. No statement about the machine rests on them. -/

namespace Sys2Proof.Machine

/-- Configuration G (95_test_vectors.md section 0.1, 93_implementation_defined.md G1 and G2). -/
def resetCfg : Cfg where
  start := 0x2B#8
  esc := 0x2D#8
  cmdRead := 0x01#8
  cmdWrite := 0x02#8
  cmdLongWrite := 0x03#8
  cmdResponse := 0x05#8
  cmdLongResponse := 0x06#8
  cmdExtra := []
  cmdNone := 0xFF#8
  ftPlant := 8
  ck := .crcG
  bufCap := 65541
  valid := by decide

end Sys2Proof.Machine
end

