-- ==== Sys2Proof/Syntax.lean ====
section
/-! DEFINITION. The instructions: one constructor of `Instr` for each row of spec/opcode_table.json.
INDEX.md: "Instructions" are, for this block, the wire commands and the host operations of its ports. -/

namespace Sys2Proof

/-- The two frame-type tags (R27). No frame type is ever read from the wire (R87). -/
inductive FrameType where
  | standard
  | plant
  deriving DecidableEq, Repr

/-- The operands of `ENC` beside the command (R125), with the defaults of the textual notation (R16):
an absent payload is empty, an absent address is 0, an absent frame type is standard. -/
structure EncOperands where
  id : Word
  payload : List Byte := []
  addr : Word := 0
  ft : FrameType := .standard
  deriving DecidableEq, Repr

/-- The two operand forms of a wire command: the table names an encode rule and a decode rule for each. -/
inductive CommandForm where
  /-- encode direction: `ENC <CMD> id=.. [payload=..] [addr=..] [ft=..]` (R16, R135 to R140) -/
  | send (a : EncOperands)
  /-- decode direction (R186 to R191, R173): the frame arrives at decoder unit `unit`. `body` is the
  pre-stuffing form after the command byte, checksum included (R70, R71). -/
  | recv (unit : Nat) (body : List Byte)
  deriving DecidableEq, Repr

/-- The instructions, in the order of spec/opcode_table.json. A decoder port names the unit it drives
(R222: any number of independent instances). -/
inductive Instr where
  /-- READ (R135, R186) -/
  | read (f : CommandForm)
  /-- WRITE (R136, R187) -/
  | write (f : CommandForm)
  /-- LONG_WRITE (R137, R188) -/
  | longWrite (f : CommandForm)
  /-- RESPONSE (R138, R189) -/
  | response (f : CommandForm)
  /-- LONG_RESPONSE (R139, R190) -/
  | longResponse (f : CommandForm)
  /-- EXTRA(x), `x` a member of `CMD_EXTRA` (R140, R191) -/
  | extra (x : Byte) (f : CommandForm)
  /-- NONE, the sentinel `CMD_NONE` used as a command byte (R126, R173, D10) -/
  | sentinel (f : CommandForm)
  /-- any_other_byte: a command byte that is no command and not the sentinel (R84, R126, R173) -/
  | otherByte (b : Byte) (f : CommandForm)
  /-- START: the start token arrives at a unit (R82, R149) -/
  | start (unit : Nat)
  /-- ESC: the escape token arrives at a unit (R100, R104) -/
  | esc (unit : Nat)
  /-- ENC with any command byte (R125 to R134) -/
  | enc (cmd : Byte) (a : EncOperands)
  /-- NEW, no default frame type (R145) -/
  | new (unit : Nat) (ft : FrameType)
  /-- CONSUME (R146) -/
  | consume (unit : Nat) (chunk : List Byte)
  /-- IS_COMPLETE (R179) -/
  | isComplete (unit : Nat)
  /-- IS_VALID (R178) -/
  | isValid (unit : Nat)
  /-- GET_ID (R180) -/
  | getId (unit : Nat)
  /-- GET_ADDRESS (R181) -/
  | getAddress (unit : Nat)
  /-- GET_DATA (R182) -/
  | getData (unit : Nat)
  /-- GET_COMMAND (R184) -/
  | getCommand (unit : Nat)
  /-- GET_FRAME_TYPE (R185) -/
  | getFrameType (unit : Nat)
  deriving DecidableEq, Repr

end Sys2Proof
end

