-- ==== Sys2Proof/Machine/State.lean ====
section
/-! DEFINITION. The state of the block: the decoder units (R21 of 10_state.md), the configuration
(R36), the host's requests and the outcome of the last transaction (R10, R15). -/

namespace Sys2Proof.Machine

/-- The `fault` register (R31). -/
inductive FaultReg where
  | none
  | checksumMismatch
  | unknownCommand
  | badLength
  deriving DecidableEq, Repr

/-- The `cmd` register (R25): a member of `KNOWN`, or the sentinel `CMD_NONE`. -/
inductive CommandReg where
  /-- the sentinel `CMD_NONE` (R25, D10) -/
  | none
  /-- the command with this code -/
  | code (c : Byte)
  deriving DecidableEq, Repr

/-- One decoder unit (R21), with the spec's register names. -/
structure Decoder where
  /-- frame type of the unit (R27) -/
  ft : FrameType
  /-- accumulation buffer of de-stuffed bytes, the start token first (R33) -/
  buf : List Byte
  /-- escaping flag (R28) -/
  esc : Bool
  /-- expected number of buffer bytes before the checksum; `none` is the spec's `unknown` (R32) -/
  target : Option Nat
  /-- terminal flag (R29) -/
  complete : Bool
  /-- checksum validity flag `crc_ok` (R30) -/
  crcOk : Bool
  /-- which check failed (R31) -/
  fault : FaultReg
  /-- decoded command (R25) -/
  cmd : CommandReg
  /-- decoded address (R23) -/
  addr : Word
  /-- decoded object id (R22) -/
  id : Word
  /-- decoded payload (R24) -/
  data : List Byte
  deriving DecidableEq, Repr

/-- The errors E1 to E8 of rule R200, with the information each carries. All of them are values handed
to the host through the port (R15): none stops the machine. -/
inductive CodecError where
  /-- E1: a field accessor before completion (R201) -/
  | notComplete
  /-- E2: received and computed checksum differ (R202) -/
  | checksumMismatch (rx computed : Half) (consumed : Nat)
  /-- E3: the checksum matched, the command byte is not in `KNOWN` (R203) -/
  | unknownCommand (code : Byte) (consumed : Nat)
  /-- E4: the declared length is too small for the frame type (R204) -/
  | badLength (L : Nat) (consumed : Nat)
  /-- E5: CONSUME on a complete unit (R205) -/
  | spent
  /-- E6: ENC with a command outside `KNOWN` (R206) -/
  | encBadCommand (code : Byte)
  /-- E7: the declared length does not fit the length field (R206) -/
  | encLengthOverflow (L W : Nat)
  /-- E8: a decoder port of a unit never given NEW (R231) -/
  | noInstance
  deriving DecidableEq, Repr

/-- The values a port returns (the `result` column of spec/opcode_table.json). -/
inductive Value where
  /-- NEW returns nothing (R145) -/
  | unit
  /-- ENC: the wire form (R133) -/
  | wire (bytes : List Byte)
  /-- CONSUME: the count of bytes consumed (R146) -/
  | count (n : Nat)
  /-- IS_COMPLETE, IS_VALID (R179, R178) -/
  | bool (b : Bool)
  /-- GET_ID, GET_ADDRESS (R180, R181) -/
  | word (w : Word)
  /-- GET_DATA (R182) -/
  | bytes (s : List Byte)
  /-- GET_COMMAND (R184) -/
  | command (c : CommandReg)
  /-- GET_FRAME_TYPE (R185) -/
  | frameType (ft : FrameType)
  deriving DecidableEq, Repr

/-- The outcome of the last transaction (R15). The MODEL's own field: the port's output side. -/
inductive Reply where
  /-- no transaction has run yet -/
  | idle
  /-- `return v` -/
  | returned (v : Value)
  /-- `raise E(info)`: what the transaction wrote before stays written (R211) -/
  | raised (e : CodecError)
  /-- `refuse E(info)`: no register has changed (R212) -/
  | refused (e : CodecError)
  deriving DecidableEq, Repr

/-- One request of the host, not yet issued. The MODEL's own: the port's input side (R10). -/
inductive Request where
  /-- a transaction in the notation of rule R16: it has no binary encoding (D1) -/
  | call (i : Instr)
  /-- the byte word of a wire row of the table, arriving at a decoder unit -/
  | wire (unit : Nat) (bytes : List Byte)
  deriving DecidableEq, Repr

/-- The whole state. -/
structure State where
  /-- the configuration `cfg` (R7, R36): no instruction writes it -/
  cfg : Cfg
  /-- the decoder units that have been given NEW, by rising unit number (R222, R231) -/
  units : List (Nat × Decoder)
  /-- the host's requests, the next one first (the MODEL's own, log entry 6) -/
  pending : List Request
  /-- the outcome of the last transaction (the MODEL's own, log entry 7) -/
  reply : Reply
  deriving DecidableEq, Repr

/-- The faults of the machine. The spec's own errors are no faults: see `CodecError`. -/
inductive Fault where
  /-- Raised by the header step or the decode step when a `MemRead` or a slice would reach outside the
  accumulation buffer, where rules R12 and R14 leave it undefined. Rule R54: this is never performed,
  and it is not in any state a run reaches. Safe: the machine stops where the spec says nothing. -/
  | readOutsideBuffer
  deriving DecidableEq, Repr

/-- The refusals of the machine. The spec's own refusals are replies: see `Reply.refused`. -/
inductive Refusal where
  /-- Raised by an arm of `exec` for an instruction that has no meaning yet; no arm does. Safe. -/
  | notModelled (mnemonic : String)
  /-- Raised by `step` for a byte word with no byte in it: it is no row of the table (DESIGN CHOICE, log
  entry 11). Safe. -/
  | emptyWord
  /-- Raised by `step` for a token followed by further bytes in one byte word: it is no row of the
  table (the host hands such a chunk to CONSUME; DESIGN CHOICE, log entry 11). Safe. -/
  | tokenWithTail
  deriving DecidableEq, Repr

/-- The machine after reset: no unit has been given NEW (R231), nothing pending, no outcome yet, and
the configuration of `resetCfg` (PRESUMED, log entries 1 to 4). -/
def State.reset : State where
  cfg := resetCfg
  units := []
  pending := []
  reply := .idle

end Sys2Proof.Machine
end

