-- ==== Sys2Proof/Machine/Flags.lean ====
section
/-! DEFINITION. The flags of a decoder unit (R28 to R31 of 10_state.md), the combined predicate
`IS_VALID` (R178) and the status view (R34). -/

namespace Sys2Proof.Machine

/-- The unstuffing step `UNSTUFF1` (R104): the new `esc` flag, and the byte to append if the input byte
is not dropped. It applies only while the buffer is not empty (R105). -/
def unstuff1 (cfg : Cfg) (esc : Bool) (b : Byte) : Bool × Option Byte :=
  if esc then (false, some b)
  else if b = cfg.esc then (true, none)
  else (false, some b)

/-- The combined "fully valid" predicate (R178). -/
def Decoder.fullyValid (d : Decoder) : Bool :=
  d.complete && d.crcOk && d.fault = .none

/-- The seven statuses (R34). -/
inductive Status where
  | seek
  | header
  | body
  | valid
  | crcFailed
  | cmdFailed
  | lenFailed
  deriving DecidableEq, Repr

/-- The status of a unit as a function of its registers (R34's table). `none` where no row of the table
applies: `complete` set, `crc_ok` clear and no fault, which no run reaches (R30, R31). -/
def Decoder.status (d : Decoder) : Option Status :=
  if d.complete then
    match d.fault with
    | .checksumMismatch => some .crcFailed
    | .unknownCommand => some .cmdFailed
    | .badLength => some .lenFailed
    | .none => if d.crcOk then some .valid else none
  else if d.buf = [] then some .seek
  else if d.target = none then some .header
  else some .body

end Sys2Proof.Machine
end

