-- ==== Sys2Proof/Machine/Bytes.lean ====
section
/-! DEFINITION. Byte sequences and the big-endian primitives (R12, R13, R14 of 00_scope.md; R50 of
20_memory.md). -/

namespace Sys2Proof.Machine

/-- `be_N(v)` (R13): `n` bytes, the most significant first; byte `k` is `(v div 256^(n-1-k)) mod 256`. -/
def be : Nat → Nat → List Byte
  | 0, _ => []
  | n + 1, v => BitVec.ofNat 8 (v / 256 ^ n) :: be n v

/-- `ube(s)` (R13): the big-endian unsigned number of a byte sequence; `ube([]) = 0`. -/
def ube (s : List Byte) : Nat :=
  s.foldl (fun acc b => acc * 256 + b.toNat) 0

/-- `s[a..b)` (R12), defined only when `a <= b <= len(s)`. -/
def slice (s : List Byte) (a b : Nat) : Option (List Byte) :=
  if a ≤ b ∧ b ≤ s.length then some ((s.drop a).take (b - a)) else none

/-- `MemRead(k, n)` on a buffer (R14, R56), defined only when `k + n <= len(buf)` (R54). -/
def memRead (buf : List Byte) (k n : Nat) : Option Nat :=
  (slice buf k (k + n)).map ube

end Sys2Proof.Machine
end

