-- ==== Sys2Proof/Machine/Operands.lean ====
section
/-! DEFINITION. The derived sets of rule R9 (00_scope.md), the length arithmetic of rules R75 and R76
(30_encoding.md), and the operand forms of `ENC` (R127 to R131 of 42_encoder.md). -/

namespace Sys2Proof.Machine

/-- `c ∈ LONG` (R9). -/
def isLong (cfg : Cfg) (c : Byte) : Bool :=
  c = cfg.cmdLongWrite || c = cfg.cmdLongResponse

/-- `c ∈ KNOWN` (R9): the five named commands and `CMD_EXTRA`. -/
def isKnown (cfg : Cfg) (c : Byte) : Bool :=
  c ∈ cfg.named || c ∈ cfg.cmdExtra

/-- `b ∈ RESERVED` (R9): a byte whose value is one of the two tokens (R100). -/
def isReserved (cfg : Cfg) (b : Byte) : Bool :=
  b = cfg.start || b = cfg.esc

/-- `W(c)` (R9, R74): 2 for a long command, 1 for every other byte, recognized or not. -/
def lengthWidth (cfg : Cfg) (c : Byte) : Nat :=
  if isLong cfg c then 2 else 1

/-- `A(ft)` (R9): the number of address bytes. -/
def addrSize : FrameType → Nat
  | .standard => 0
  | .plant => 4

/-- `FTV(ft)` (R7, R27): 0 for standard, `FT_PLANT` for plant. -/
def ftValue (cfg : Cfg) : FrameType → Nat
  | .standard => 0
  | .plant => cfg.ftPlant

/-- The effective payload (R127): empty for a read-request, else the given one. -/
def effPayload (cfg : Cfg) (cmd : Byte) (a : EncOperands) : List Byte :=
  if cmd = cfg.cmdRead then [] else a.payload

/-- The effective address (R128): the given one for a plant frame, else 0. -/
def effAddr (a : EncOperands) : Word :=
  match a.ft with
  | .standard => 0
  | .plant => a.addr

/-- The address field (R77, R129): 4 bytes, present only in a plant frame. -/
def addrField (ft : FrameType) (addr : Word) : List Byte :=
  match ft with
  | .standard => []
  | .plant => be 4 addr.toNat

/-- The body (R129): address, object id, effective payload. -/
def frameBody (ft : FrameType) (addr id : Word) (payload : List Byte) : List Byte :=
  addrField ft addr ++ be 4 id.toNat ++ payload

/-- The declared length `L` (R75, R130): the frame-type value plus the length of the body. -/
def declaredLength (cfg : Cfg) (ft : FrameType) (body : List Byte) : Nat :=
  ftValue cfg ft + body.length

/-- The pre-stuffing buffer (R131): command byte, length field, body. -/
def preBuffer (cfg : Cfg) (cmd : Byte) (L : Nat) (body : List Byte) : List Byte :=
  cmd :: be (lengthWidth cfg cmd) L ++ body

end Sys2Proof.Machine
end

