-- ==== Sys2Proof/Machine/Ops.lean ====
section
/-! DEFINITION. The operations the instructions share: the store of decoder units, replies, the error
entry, stuffing (40_escape.md), the encoder's algorithm (42_encoder.md), the per-byte step and the
decode step (43_decoder_consume.md, 44_decoder_decode.md), the port contracts. -/

namespace Sys2Proof.Machine

/-! ### The store of units (R222, R231) -/

/-- The unit with number `u`, if it has been given NEW (R231). -/
def lookupUnit (u : Nat) : List (Nat × Decoder) → Option Decoder
  | [] => none
  | (k, d) :: rest => if u = k then some d else lookupUnit u rest

/-- Unit `u` becomes `d`; every other unit stays (R62). Keeps the rising order. -/
def insertUnit (u : Nat) (d : Decoder) : List (Nat × Decoder) → List (Nat × Decoder)
  | [] => [(u, d)]
  | (k, e) :: rest =>
    if u < k then (u, d) :: (k, e) :: rest
    else if u = k then (u, d) :: rest
    else (k, e) :: insertUnit u d rest

/-- The canonical form of the store: unit numbers strictly rising, so that equal stores are equal lists. -/
abbrev unitsWf (l : List (Nat × Decoder)) : Prop :=
  (l.map Prod.fst).Pairwise (· < ·)

/-- The decoder of unit `u` in a state. -/
def State.unit (s : State) (u : Nat) : Option Decoder :=
  lookupUnit u s.units

/-- Write the decoder of unit `u`. -/
def State.setUnit (s : State) (u : Nat) (d : Decoder) : State :=
  { s with units := insertUnit u d s.units }

/-! ### Outcomes of a transaction (R15) -/

/-- `return v`. -/
def State.returns (s : State) (v : Value) : State :=
  { s with reply := .returned v }

/-- `raise E(info)`: control returns to the host with the error (R211). -/
def State.raises (s : State) (e : CodecError) : State :=
  { s with reply := .raised e }

/-- `refuse E(info)`: no register changes (R212). -/
def State.refuses (s : State) (e : CodecError) : State :=
  { s with reply := .refused e }

/-! ### Registers of a unit -/

/-- The reset values `NEW` installs (R39). -/
def Decoder.fresh (t : FrameType) : Decoder where
  ft := t
  buf := []
  esc := false
  target := none
  complete := false
  crcOk := false
  fault := .none
  cmd := .none
  addr := 0
  id := 0
  data := []

/-- `Append(b)` (R14), the only write of the buffer. -/
def Decoder.append (d : Decoder) (b : Byte) : Decoder :=
  { d with buf := d.buf ++ [b] }

/-- What one input byte does to a unit (R148): go on, complete as valid, or go terminal with an error. -/
inductive ByteOutcome where
  | more (d : Decoder)
  | doneOk (d : Decoder)
  | doneErr (d : Decoder) (e : CodecError)
  deriving DecidableEq, Repr

/-- TAKING AN ERROR, the one entry all raised errors share (R200, R211): the unit goes terminal, `fault`
names the check that failed, nothing else is written, and the error goes to the host. There is no
return from an error (R213): only `NEW` leaves a terminal state. -/
def takeError (d : Decoder) (f : FaultReg) (e : CodecError) : ByteOutcome :=
  .doneErr { d with complete := true, fault := f } e

/-! ### Escape logic (40_escape.md) -/

/-- `STUFF(s)` (R101): the escape token before every byte equal to a token. -/
def stuff (cfg : Cfg) : List Byte → List Byte
  | [] => []
  | b :: t => if isReserved cfg b then cfg.esc :: b :: stuff cfg t else b :: stuff cfg t

/-- `[START] ++ STUFF(s)` (R70, R102): the wire form of a pre-stuffing form. -/
def wireForm (cfg : Cfg) (s : List Byte) : List Byte :=
  cfg.start :: stuff cfg s

/-! ### The encoder (42_encoder.md) -/

/-- The pre-stuffing form (R70, R132): the pre-stuffing buffer and its checksum, big-endian. -/
def withChecksum (cfg : Cfg) (pre : List Byte) : List Byte :=
  pre ++ be 2 (checksum cfg.ck pre).toNat

/-- `ENC` (R125 to R133): the wire form, or one of its two refusals, the command check first (R210 (d)). -/
def encodeFrame (cfg : Cfg) (cmd : Byte) (a : EncOperands) : Except CodecError (List Byte) :=
  if isKnown cfg cmd then
    let body := frameBody a.ft (effAddr a) a.id (effPayload cfg cmd a)
    let L := declaredLength cfg a.ft body
    let W := lengthWidth cfg cmd
    if 256 ^ W ≤ L then .error (.encLengthOverflow L W)
    else .ok (wireForm cfg (withChecksum cfg (preBuffer cfg cmd L body)))
  else .error (.encBadCommand cmd)

/-! ### The decode step (R170 to R176) -/

/-- `c`, `W` and `L` as the header step and the decode step read them (R152, R174): the command byte, and
the declared length at the width the command byte selects. -/
def readHeader (cfg : Cfg) (buf : List Byte) : Option (Byte × Nat) := do
  let c ← memRead buf 1 1
  let L ← memRead buf 2 (lengthWidth cfg (BitVec.ofNat 8 c))
  return (BitVec.ofNat 8 c, L)

/-- Steps 3b and 3c and the commit (R174, R175, R176). -/
def decodeFields (cfg : Cfg) (d : Decoder) (c : Byte) (L i : Nat) : Option ByteOutcome :=
  if L < ftValue cfg d.ft + addrSize d.ft + 4 then
    some (takeError d .badLength (.badLength L i))
  else do
    let N := L - ftValue cfg d.ft - addrSize d.ft - 4
    let idx := 2 + lengthWidth cfg c
    let a ← memRead d.buf idx (addrSize d.ft)
    let o ← memRead d.buf (idx + addrSize d.ft) 4
    let p ← slice d.buf (idx + addrSize d.ft + 4) (idx + addrSize d.ft + 4 + N)
    return .doneOk
      { d with cmd := .code c, addr := BitVec.ofNat 32 a, id := BitVec.ofNat 32 o, data := p }

/-- Step 3a (R173): the command byte is recognized only after the checksum matched (D9). -/
def decodeCommand (cfg : Cfg) (d : Decoder) (i : Nat) : Option ByteOutcome := do
  let c ← memRead d.buf 1 1
  if isKnown cfg (BitVec.ofNat 8 c) then
    let (c, L) ← readHeader cfg d.buf
    decodeFields cfg d c L i
  else
    return takeError d .unknownCommand (.unknownCommand (BitVec.ofNat 8 c) i)

/-- `DECODE(i)` (R170): steps 1 and 2 (R171, R172), then 3. -/
def decodeStep (cfg : Cfg) (d : Decoder) (i : Nat) : Option ByteOutcome := do
  let rx ← memRead d.buf (d.buf.length - 2) 2
  let covered ← slice d.buf 1 (d.buf.length - 2)
  if BitVec.ofNat 16 rx = checksum cfg.ck covered then
    decodeCommand cfg { d with crcOk := true } i
  else
    return takeError d .checksumMismatch
      (.checksumMismatch (BitVec.ofNat 16 rx) (checksum cfg.ck covered) i)

/-! ### The per-byte step (R148 to R156) -/

/-- The completion check (R155). -/
def completionCheck (cfg : Cfg) (d : Decoder) (i : Nat) : Option ByteOutcome :=
  match d.target with
  | none => some (.more d)
  | some t =>
    if d.buf.length = t + 2 then decodeStep cfg { d with complete := true } i
    else some (.more d)

/-- What follows an append (R148): the header step when the buffer holds exactly 4 bytes (R152 to R154),
then the completion check. -/
def afterAppend (cfg : Cfg) (d : Decoder) (i : Nat) : Option ByteOutcome :=
  if d.buf.length = 4 then do
    let (c, L) ← readHeader cfg d.buf
    if L < ftValue cfg d.ft then
      return takeError d .badLength (.badLength L i)
    else
      completionCheck cfg
        { d with target := some (L - ftValue cfg d.ft + lengthWidth cfg c + 2) } i
  else completionCheck cfg d i

/-- `DSTEP(b)` (R148), `i` the chunk cursor after this byte; `none` is a read outside the buffer. -/
def dstep (cfg : Cfg) (d : Decoder) (b : Byte) (i : Nat) : Option ByteOutcome :=
  if d.buf = [] then
    some (.more (if b = cfg.start then d.append cfg.start else d))
  else
    match unstuff1 cfg d.esc b with
    | (esc, none) => some (.more { d with esc := esc })
    | (esc, some x) => afterAppend cfg ({ d with esc := esc }.append x) i

/-! ### CONSUME (R146) -/

/-- How the loop of `CONSUME` ends. -/
inductive ConsumeOutcome where
  | returned (d : Decoder) (consumed : Nat)
  | raised (d : Decoder) (e : CodecError)
  deriving DecidableEq, Repr

/-- The loop of `CONSUME` (R146, R156, R157): byte by byte in index order, `i` bytes done, stopping at
the byte that makes the unit terminal. -/
def consumeLoop (cfg : Cfg) (d : Decoder) : List Byte → Nat → Option ConsumeOutcome
  | [], i => some (.returned d i)
  | b :: rest, i =>
    match dstep cfg d b (i + 1) with
    | none => none
    | some (.more d') => consumeLoop cfg d' rest (i + 1)
    | some (.doneOk d') => some (.returned d' (i + 1))
    | some (.doneErr d' e) => some (.raised d' e)

/-! ### Port contracts -/

/-- A decoder port but NEW: refused with `NoInstance` on a unit never given NEW, before any other test
(R231, R210 (a), (e)). -/
def onUnit (s : State) (u : Nat) (k : Decoder → Host.Outcome State Fault Refusal) :
    Host.Outcome State Fault Refusal :=
  match s.unit u with
  | none => .next (s.refuses .noInstance)
  | some d => k d

/-- `CONSUME chunk` at unit `u` (R146, R147). -/
def consumeAt (s : State) (u : Nat) (chunk : List Byte) : Host.Outcome State Fault Refusal :=
  onUnit s u fun d =>
    if d.complete then .next (s.refuses .spent)
    else
      match consumeLoop s.cfg d chunk 0 with
      | none => .fault .readOutsideBuffer
      | some (.returned d' n) => .next ((s.setUnit u d').returns (.count n))
      | some (.raised d' e) => .next ((s.setUnit u d').raises e)

/-- A query that never fails on an instance (R178, R179, R185). -/
def queryAt (s : State) (u : Nat) (v : Decoder → Value) : Host.Outcome State Fault Refusal :=
  onUnit s u fun d => .next (s.returns (v d))

/-- The common contract of the field accessors (R183): `NotComplete` before completion, else the register. -/
def fieldAt (s : State) (u : Nat) (v : Decoder → Value) : Host.Outcome State Fault Refusal :=
  onUnit s u fun d =>
    if d.complete then .next (s.returns (v d)) else .next (s.refuses .notComplete)

/-- `ENC` at the encoder port (R125): the wire form, or a refusal; no decoder state is read or written. -/
def encAt (s : State) (cmd : Byte) (a : EncOperands) : Host.Outcome State Fault Refusal :=
  match encodeFrame s.cfg cmd a with
  | .ok wire => .next (s.returns (.wire wire))
  | .error e => .next (s.refuses e)

/-- A wire command with command byte `c` in its two forms: `ENC` of it, or the arrival of its frame,
which is the CONSUME of the frame's wire form (R70). -/
def commandAt (s : State) (c : Byte) : CommandForm → Host.Outcome State Fault Refusal
  | .send a => encAt s c a
  | .recv u body => consumeAt s u (wireForm s.cfg (c :: body))

end Sys2Proof.Machine
end

