-- ==== Sys2Proof/Machine/Commands.lean ====
section
/-! DEFINITION. The wire commands (30_encoding.md R80, R84): encode rules R135 to R140 and R126, decode
rules R186 to R191 and R173. -/

namespace Sys2Proof.Machine

/-- READ: R135 (its payload is dropped, R127) and R186. -/
def execRead (f : CommandForm) (s : State) : Host.Outcome State Fault Refusal :=
  commandAt s s.cfg.cmdRead f

/-- WRITE: R136 and R187. -/
def execWrite (f : CommandForm) (s : State) : Host.Outcome State Fault Refusal :=
  commandAt s s.cfg.cmdWrite f

/-- LONG_WRITE: R137 and R188. -/
def execLongWrite (f : CommandForm) (s : State) : Host.Outcome State Fault Refusal :=
  commandAt s s.cfg.cmdLongWrite f

/-- RESPONSE: R138 and R189. -/
def execResponse (f : CommandForm) (s : State) : Host.Outcome State Fault Refusal :=
  commandAt s s.cfg.cmdResponse f

/-- LONG_RESPONSE: R139 and R190. -/
def execLongResponse (f : CommandForm) (s : State) : Host.Outcome State Fault Refusal :=
  commandAt s s.cfg.cmdLongResponse f

/-- EXTRA(x): R140 and R191. A byte `x` outside `CMD_EXTRA` is treated by its value (R126, R173). -/
def execExtra (x : Byte) (f : CommandForm) (s : State) : Host.Outcome State Fault Refusal :=
  commandAt s x f

/-- NONE: refused by ENC (R126), an unknown command when received (R173, D10). -/
def execSentinel (f : CommandForm) (s : State) : Host.Outcome State Fault Refusal :=
  commandAt s s.cfg.cmdNone f

/-- any_other_byte: refused by ENC (R126), framed with `W = 1` and an unknown command when received
(R84, R173). -/
def execOtherByte (b : Byte) (f : CommandForm) (s : State) : Host.Outcome State Fault Refusal :=
  commandAt s b f

end Sys2Proof.Machine
end

