-- ==== Sys2Proof/Machine/Ports.lean ====
section
/-! DEFINITION. The host transactions: ENC (42_encoder.md), NEW and CONSUME (43_decoder_consume.md), the
accessors (44_decoder_decode.md section 3). -/

namespace Sys2Proof.Machine

/-- ENC with any command byte (R125 to R134). -/
def execEnc (cmd : Byte) (a : EncOperands) (s : State) : Host.Outcome State Fault Refusal :=
  encAt s cmd a

/-- NEW (R145, R230): every register of the unit to its reset value (R39), in any status. -/
def execNew (u : Nat) (ft : FrameType) (s : State) : Host.Outcome State Fault Refusal :=
  .next ((s.setUnit u (Decoder.fresh ft)).returns .unit)

/-- CONSUME (R146 to R158). -/
def execConsume (u : Nat) (chunk : List Byte) (s : State) : Host.Outcome State Fault Refusal :=
  consumeAt s u chunk

/-- IS_COMPLETE (R179). -/
def execIsComplete (u : Nat) (s : State) : Host.Outcome State Fault Refusal :=
  queryAt s u fun d => .bool d.complete

/-- IS_VALID (R178). -/
def execIsValid (u : Nat) (s : State) : Host.Outcome State Fault Refusal :=
  queryAt s u fun d => .bool d.fullyValid

/-- GET_ID (R180). -/
def execGetId (u : Nat) (s : State) : Host.Outcome State Fault Refusal :=
  fieldAt s u fun d => .word d.id

/-- GET_ADDRESS (R181). -/
def execGetAddress (u : Nat) (s : State) : Host.Outcome State Fault Refusal :=
  fieldAt s u fun d => .word d.addr

/-- GET_DATA (R182). -/
def execGetData (u : Nat) (s : State) : Host.Outcome State Fault Refusal :=
  fieldAt s u fun d => .bytes d.data

/-- GET_COMMAND (R184). -/
def execGetCommand (u : Nat) (s : State) : Host.Outcome State Fault Refusal :=
  fieldAt s u fun d => .command d.cmd

/-- GET_FRAME_TYPE (R185): never `NotComplete`. -/
def execGetFrameType (u : Nat) (s : State) : Host.Outcome State Fault Refusal :=
  queryAt s u fun d => .frameType d.ft

end Sys2Proof.Machine
end

