-- ==== Sys2Proof/Machine/Tokens.lean ====
section
/-! DEFINITION. The wire tokens arriving at a decoder unit: a one-byte CONSUME of the token (D1). -/

namespace Sys2Proof.Machine

/-- START: opens a frame when the buffer is empty (R149), an ordinary byte elsewhere (R109). -/
def execStart (u : Nat) (s : State) : Host.Outcome State Fault Refusal :=
  consumeAt s u [s.cfg.start]

/-- ESC: noise while the buffer is empty (R105), else dropped with `esc` set, or appended verbatim when
`esc` is already set (R104, R150, R151). -/
def execEsc (u : Nat) (s : State) : Host.Outcome State Fault Refusal :=
  consumeAt s u [s.cfg.esc]

end Sys2Proof.Machine
end

