-- ==== Sys2Proof/Machine/Dispatch.lean ====
section
/-! DEFINITION. The dispatch of the instructions to their meanings, one arm per constructor. -/

namespace Sys2Proof.Machine

def exec (i : Instr) (s : State) : Host.Outcome State Fault Refusal :=
  match i with
  | .read f => Sys2Proof.Machine.execRead f s
  | .write f => Sys2Proof.Machine.execWrite f s
  | .longWrite f => Sys2Proof.Machine.execLongWrite f s
  | .response f => Sys2Proof.Machine.execResponse f s
  | .longResponse f => Sys2Proof.Machine.execLongResponse f s
  | .extra x f => Sys2Proof.Machine.execExtra x f s
  | .sentinel f => Sys2Proof.Machine.execSentinel f s
  | .otherByte b f => Sys2Proof.Machine.execOtherByte b f s
  | .start u => Sys2Proof.Machine.execStart u s
  | .esc u => Sys2Proof.Machine.execEsc u s
  | .enc cmd a => Sys2Proof.Machine.execEnc cmd a s
  | .new u ft => Sys2Proof.Machine.execNew u ft s
  | .consume u chunk => Sys2Proof.Machine.execConsume u chunk s
  | .isComplete u => Sys2Proof.Machine.execIsComplete u s
  | .isValid u => Sys2Proof.Machine.execIsValid u s
  | .getId u => Sys2Proof.Machine.execGetId u s
  | .getAddress u => Sys2Proof.Machine.execGetAddress u s
  | .getData u => Sys2Proof.Machine.execGetData u s
  | .getCommand u => Sys2Proof.Machine.execGetCommand u s
  | .getFrameType u => Sys2Proof.Machine.execGetFrameType u s

end Sys2Proof.Machine
end

