-- ==== Sys2Proof/WellFormed.lean ====
section
/-! DEFINITION. Which instructions are well formed for a configuration, and which of them have a byte
word of their own (the others are host transactions with no binary encoding: R10, D1). -/

namespace Sys2Proof

open Sys2Proof.Machine

/-- The command byte of a wire-command row of the table (R80), if the instruction is one. -/
def Instr.commandByte (cfg : Cfg) : Instr → Option Byte
  | .read _ => some cfg.cmdRead
  | .write _ => some cfg.cmdWrite
  | .longWrite _ => some cfg.cmdLongWrite
  | .response _ => some cfg.cmdResponse
  | .longResponse _ => some cfg.cmdLongResponse
  | .extra x _ => some x
  | .sentinel _ => some cfg.cmdNone
  | .otherByte b _ => some b
  | .start _ => none
  | .esc _ => none
  | .enc _ _ => none
  | .new _ _ => none
  | .consume _ _ => none
  | .isComplete _ => none
  | .isValid _ => none
  | .getId _ => none
  | .getAddress _ => none
  | .getData _ => none
  | .getCommand _ => none
  | .getFrameType _ => none

/-- The operand form of a wire-command row. -/
def Instr.form : Instr → Option CommandForm
  | .read f => some f
  | .write f => some f
  | .longWrite f => some f
  | .response f => some f
  | .longResponse f => some f
  | .extra _ f => some f
  | .sentinel f => some f
  | .otherByte _ f => some f
  | .start _ => none
  | .esc _ => none
  | .enc _ _ => none
  | .new _ _ => none
  | .consume _ _ => none
  | .isComplete _ => none
  | .isValid _ => none
  | .getId _ => none
  | .getAddress _ => none
  | .getData _ => none
  | .getCommand _ => none
  | .getFrameType _ => none

/-- EXTRA(x) names a member of `CMD_EXTRA` (R140). -/
def extraIsMember (cfg : Cfg) : Instr → Bool
  | .extra x _ => x ∈ cfg.cmdExtra
  | _ => true

/-- any_other_byte names a byte that is no command and not the sentinel (R84). -/
def otherIsUnassigned (cfg : Cfg) : Instr → Bool
  | .otherByte b _ => !isKnown cfg b && b != cfg.cmdNone
  | _ => true

/-- A well-formed instruction: its command operand belongs to the row it names. -/
def Instr.wf (cfg : Cfg) (i : Instr) : Bool :=
  extraIsMember cfg i && otherIsUnassigned cfg i

/-- The instruction has a byte word: a token, or an arriving frame whose command byte is not the value
of a token. (A command code may equal a token, R100; such a frame is handed over as CONSUME or as the
instruction itself, log entry 11.) -/
def Instr.hasWord (cfg : Cfg) (i : Instr) : Bool :=
  match i with
  | .start _ => true
  | .esc _ => true
  | _ =>
    match i.form, i.commandByte cfg with
    | some (.recv _ _), some c => !isReserved cfg c
    | _, _ => false

end Sys2Proof
end

