-- ==== Sys2Proof/Decode.lean ====
section
/-! DEFINITION. The opcode table as a decoder of byte words, and its encoder. A word is a wire token
(one byte: R82, R100), or the pre-stuffing form of a frame whose byte 0 is the command (R71, R72,
R80, R84). Host transactions have no binary encoding (R10, D1). Log entries 9 and 11. -/

namespace Sys2Proof

open Sys2Proof.Machine

/-- Why a byte word is no instruction. -/
inductive DecodeError where
  /-- there is no byte -/
  | noBytes
  /-- a token, which is one byte, is followed by further bytes -/
  | tokenWithTail
  deriving DecidableEq, Repr

/-- The wire-command row of a command byte (R80, R84): the match column of the table, over `cfg`. -/
def commandRow (cfg : Cfg) (c : Byte) (f : CommandForm) : Instr :=
  if c = cfg.cmdRead then .read f
  else if c = cfg.cmdWrite then .write f
  else if c = cfg.cmdLongWrite then .longWrite f
  else if c = cfg.cmdResponse then .response f
  else if c = cfg.cmdLongResponse then .longResponse f
  else if c ∈ cfg.cmdExtra then .extra c f
  else if c = cfg.cmdNone then .sentinel f
  else .otherByte c f

/-- The instruction a byte word arriving at decoder unit `u` stands for. Total on any bytes. -/
def decode (cfg : Cfg) (u : Nat) : List Byte → Except DecodeError Instr
  | [] => .error .noBytes
  | b :: rest =>
    if b = cfg.start then
      match rest with
      | [] => .ok (.start u)
      | _ :: _ => .error .tokenWithTail
    else if b = cfg.esc then
      match rest with
      | [] => .ok (.esc u)
      | _ :: _ => .error .tokenWithTail
    else .ok (commandRow cfg b (.recv u rest))

/-- The unit and the byte word of an instruction that has one (`Instr.hasWord`), written from the same
columns: a token is itself; a frame is its command byte and the rest of its pre-stuffing form. -/
def encode (cfg : Cfg) (i : Instr) : Option (Nat × List Byte) :=
  match i with
  | .start u => some (u, [cfg.start])
  | .esc u => some (u, [cfg.esc])
  | _ =>
    match i.form, i.commandByte cfg with
    | some (.recv u body), some c => some (u, c :: body)
    | _, _ => none

/-- The `n` bytes of a table word, bit 0 the least significant bit of the first. -/
def wordBytes : Nat → Nat → List Byte
  | 0, _ => []
  | n + 1, w => BitVec.ofNat 8 w :: wordBytes n (w / 256)

/-- The bytes of a table word as they are stored: the word's own bytes and, for a frame, the zero
operand bytes up to the smallest frame (8 bytes, R86). A token has no byte after it. -/
def layoutWord (cfg : Cfg) (nbits w : Nat) : List Byte :=
  match wordBytes (nbits / 8) w with
  | [] => []
  | b :: rest =>
    if isReserved cfg b then b :: rest
    else b :: rest ++ List.replicate (8 - (rest.length + 1)) 0#8

/-- The instruction the decoder reads from a word of spec/opcode_table.json, with the table's own
command codes and tokens (`resetCfg`) at unit 0. -/
def decodeTableWord (nbits w : Nat) : Option Instr :=
  match decode resetCfg 0 (layoutWord resetCfg nbits w) with
  | .ok i => some i
  | .error _ => none

end Sys2Proof
end

