-- ==== Sys2Proof/Machine/Fetch.lean ====
section
/-! DEFINITION. From a request of the host to the instruction it stands for. The block fetches no
instructions (R26): the host hands them over. -/

namespace Sys2Proof.Machine

/-- The name of the refusal for a byte word that is no instruction. -/
def refusalOf : DecodeError → Refusal
  | .noBytes => .emptyWord
  | .tokenWithTail => .tokenWithTail

/-- The instruction a request stands for: a transaction is itself (it has no binary encoding, D1); the
byte word of a wire row is decoded. -/
def fetch (cfg : Cfg) : Request → Except Refusal Instr
  | .call i => .ok i
  | .wire u bytes =>
    match decode cfg u bytes with
    | .ok i => .ok i
    | .error e => .error (refusalOf e)

end Sys2Proof.Machine
end

