-- ==== Sys2Proof/Machine/Step.lean ====
section
/-! DEFINITION. One step of the machine: one transaction (R10, D1), the host's next request. -/

namespace Sys2Proof.Machine

/-- Issue the next request of the host. With none pending nothing happens (R209: nothing happens to an
instance between two transactions). -/
def step (s : State) : Host.Outcome State Fault Refusal :=
  match s.pending with
  | [] => .next s
  | r :: rest =>
    match fetch s.cfg r with
    | .ok i => exec i { s with pending := rest }
    | .error e => .refused e

/-- The bytes of a word of spec/opcode_table.json, placed as the host's next request at unit 0. -/
def State.withFetchWord (s : State) (nbits w : Nat) : State :=
  { s with pending := .wire 0 (layoutWord s.cfg nbits w) :: s.pending }

end Sys2Proof.Machine
end

