-- ==== Sys2Proof/Safety.lean ====
section
/-! DEFINITION. What counts as a legal state and a safe outcome: the invariants of rule R35
(10_state.md) with the facts of rules R31 and R34 that complete them, over every decoder unit. -/

namespace Sys2Proof.Machine

/-- The fields of a VALID unit are the ones rule R176 gives, at the buffer indices of rule R58, and the
payload ends exactly where the checksum begins (R177). `W` and `A` are `W(buf[1])` and `A(ft)`. -/
abbrev Decoder.fieldsDecoded (d : Decoder) (W A : Nat) : Prop :=
  (match d.ft with
    | .standard => d.addr = 0
    | .plant => d.addr.toNat = ube ((d.buf.drop (2 + W)).take 4)) ∧
  d.id.toNat = ube ((d.buf.drop (2 + W + A)).take 4) ∧
  d.data = (d.buf.drop (2 + W + A + 4)).take (d.buf.length - 2 - (2 + W + A + 4)) ∧
  2 + W + A + 4 ≤ d.buf.length - 2

/-- Rule R35 (c) for a known target: `target = B + W + 2` with `L = MemRead(2, W)` and
`B = L - FTV(ft) >= 0`. -/
abbrev Decoder.targetFits (cfg : Cfg) (d : Decoder) (t : Nat) : Prop :=
  4 ≤ d.buf.length ∧
  match readHeader cfg d.buf with
  | some (c, L) =>
    ftValue cfg d.ft ≤ L ∧ t = L - ftValue cfg d.ft + lengthWidth cfg c + 2
  | none => False

/-- The invariants of a decoder unit: R35 (a) to (j), with what R31 and R34 add about `fault` and about
the length of a header. -/
structure Decoder.Inv (cfg : Cfg) (d : Decoder) : Prop where
  /-- R35 (a) -/
  empty : d.buf = [] → d.esc = false ∧ d.target = none ∧ d.complete = false
  /-- R35 (b) -/
  first : d.buf ≠ [] → d.buf.head? = some cfg.start
  /-- R35 (c) -/
  known : ∀ t, d.target = some t → d.targetFits cfg t
  /-- R35 (d) -/
  waiting : ∀ t, d.complete = false → d.target = some t → d.buf.length < t + 2
  /-- R35 (e) -/
  noEsc : d.complete = true → d.esc = false
  /-- R35 (f) -/
  crc : d.crcOk = true → d.complete = true
  /-- R35 (g) -/
  full : ∀ t, d.complete = true → d.target = some t → d.buf.length = t + 2
  /-- R35 (h) -/
  headerFault : d.complete = true → d.target = none → d.fault = .badLength ∧ d.buf.length = 4
  /-- R35 (i) -/
  notValid : d.status ≠ some .valid →
    d.cmd = .none ∧ d.addr = 0 ∧ d.id = 0 ∧ d.data = []
  /-- R35 (j) -/
  valid : d.status = some .valid →
    ∃ c, d.buf[1]? = some c ∧ d.cmd = .code c ∧ isKnown cfg c = true ∧
      d.fieldsDecoded (lengthWidth cfg c) (addrSize d.ft)
  /-- R34: a header holds at most 3 bytes -/
  short : d.complete = false → d.target = none → d.buf.length ≤ 3
  /-- R31: no fault before completion -/
  noFault : d.complete = false → d.fault = .none
  /-- R31: `fault = ChecksumMismatch` exactly when the decode step ran and `crc_ok` is false -/
  mismatch : d.fault = .checksumMismatch ↔
    d.complete = true ∧ d.target ≠ none ∧ d.crcOk = false
  /-- R34: an unknown command or a valid frame has a matching checksum, and a complete unit has a status -/
  matched : d.fault = .unknownCommand → d.crcOk = true
  /-- R34: the status of a unit is always one of the seven -/
  hasStatus : d.status ≠ none

/-- A legal state: the store of units is in canonical form and every unit keeps its invariants. -/
structure State.Inv (s : State) : Prop where
  sorted : unitsWf s.units
  units : ∀ u d, s.unit u = some d → d.Inv s.cfg

/-- An outcome that is no fault. -/
def noFault : Host.Outcome State Fault Refusal → Prop
  | .fault _ => False
  | .next _ => True
  | .refused _ => True

end Sys2Proof.Machine
end

