-- ==== Sys2Proof/Certificates/Slice0/Obligations.lean ====
section
/-! DEFINITION. The statements for the provers. Each names in its docstring the rules of spec/ it
formalises. A statement about every state is a statement about every configuration, the checksum
function included: `State.cfg` ranges over all of them and `Checksum.external` is an arbitrary function. -/

open Sys2Proof Sys2Proof.Machine

/-! ### Words the statements use -/

/-- The declared length of a frame (R75): `FTV(ft) + A(ft) + 4 + N`. -/
def Sys2Proof.Machine.frameLength (cfg : Cfg) (ft : FrameType) (payload : List Byte) : Nat :=
  ftValue cfg ft + addrSize ft + 4 + payload.length

/-- The address bytes of a frame, `H(ft)` of 42_encoder.md section 2: present only for plant. -/
def Sys2Proof.Machine.addressBytes (ft : FrameType) (addr : Word) : List Byte :=
  match ft with
  | .standard => []
  | .plant => be 4 addr.toNat

/-- The pre-stuffing form of a frame after its command byte, up to the last payload byte, with a length
field of `W` bytes (R71). -/
def Sys2Proof.Machine.frameRest (cfg : Cfg) (W : Nat) (ft : FrameType) (addr id : Word)
    (payload : List Byte) : List Byte :=
  be W (frameLength cfg ft payload) ++ addressBytes ft addr ++ be 4 id.toNat ++ payload

/-- The checksum field of a pre-stuffing buffer (R115, R116). -/
def Sys2Proof.Machine.checksumField (cfg : Cfg) (pre : List Byte) : List Byte :=
  be 2 (checksum cfg.ck pre).toNat

/-- The address a decoded frame shows: the frame's for plant, 0 for standard (R77, R128). -/
def Sys2Proof.Machine.shownAddress (ft : FrameType) (addr : Word) : Word :=
  match ft with
  | .standard => 0
  | .plant => addr

/-- A unit that has taken `buf` with the target `t` and gone terminal, as the decode step leaves it when a
check fails: the fields still hold their reset values (R211). -/
def Sys2Proof.Machine.failedUnit (ft : FrameType) (buf : List Byte) (t : Option Nat) (crcOk : Bool)
    (f : FaultReg) : Decoder :=
  { ft := ft, buf := buf, esc := false, target := t, complete := true, crcOk := crcOk, fault := f,
    cmd := .none, addr := 0, id := 0, data := [] }

/-- A unit that holds a decoded frame (R176). -/
def Sys2Proof.Machine.validUnit (ft : FrameType) (buf : List Byte) (t : Nat) (c : Byte) (addr id : Word)
    (data : List Byte) : Decoder :=
  { ft := ft, buf := buf, esc := false, target := some t, complete := true, crcOk := true, fault := .none,
    cmd := .code c, addr := addr, id := id, data := data }

/-- `i` sends a short command with code `c`: one length byte, the payload carried (R136, R138, R140). -/
def Sys2Proof.Machine.SendsShort (s : State) (i : Instr) (c : Byte) (a : EncOperands) : Prop :=
  (frameLength s.cfg a.ft a.payload ≤ 255 →
    exec i s = .next (s.returns (.wire (s.cfg.start :: stuff s.cfg
      (c :: frameRest s.cfg 1 a.ft a.addr a.id a.payload ++
        checksumField s.cfg (c :: frameRest s.cfg 1 a.ft a.addr a.id a.payload)))))) ∧
  (255 < frameLength s.cfg a.ft a.payload →
    exec i s = .next (s.refuses (.encLengthOverflow (frameLength s.cfg a.ft a.payload) 1)))

/-- `i` sends a long command with code `c`: two length bytes, the payload carried (R137, R139). -/
def Sys2Proof.Machine.SendsLong (s : State) (i : Instr) (c : Byte) (a : EncOperands) : Prop :=
  (frameLength s.cfg a.ft a.payload ≤ 65535 →
    exec i s = .next (s.returns (.wire (s.cfg.start :: stuff s.cfg
      (c :: frameRest s.cfg 2 a.ft a.addr a.id a.payload ++
        checksumField s.cfg (c :: frameRest s.cfg 2 a.ft a.addr a.id a.payload)))))) ∧
  (65535 < frameLength s.cfg a.ft a.payload →
    exec i s = .next (s.refuses (.encLengthOverflow (frameLength s.cfg a.ft a.payload) 2)))

/-- `i`, given the frame of command `c` with a length field of `W` bytes at a fresh unit `u` of type `ft`,
takes the whole frame and holds its fields. -/
def Sys2Proof.Machine.DecodesFrame (s : State) (form : CommandForm → Instr) (c : Byte) (W u : Nat)
    (ft : FrameType) (addr id : Word) (payload : List Byte) : Prop :=
  s.unit u = some (Decoder.fresh ft) → frameLength s.cfg ft payload < 256 ^ W →
    let body := frameRest s.cfg W ft addr id payload ++
      checksumField s.cfg (c :: frameRest s.cfg W ft addr id payload)
    exec (form (.recv u body)) s = .next ((s.setUnit u
      (validUnit ft (s.cfg.start :: c :: body) (addrSize ft + 4 + payload.length + W + 2) c
        (shownAddress ft addr) id payload)).returns
      (.count (1 + (stuff s.cfg (c :: body)).length)))

/-- The decoder unit an instruction drives; the encoder's transactions drive none (R20, R62). -/
def Sys2Proof.Machine.formUnit : CommandForm → Option Nat
  | .send _ => none
  | .recv u _ => some u

/-- The decoder unit an instruction drives, if any. -/
def Sys2Proof.Machine.drivenUnit : Instr → Option Nat
  | .read f => formUnit f
  | .write f => formUnit f
  | .longWrite f => formUnit f
  | .response f => formUnit f
  | .longResponse f => formUnit f
  | .extra _ f => formUnit f
  | .sentinel f => formUnit f
  | .otherByte _ f => formUnit f
  | .start u => some u
  | .esc u => some u
  | .enc _ _ => none
  | .new u _ => some u
  | .consume u _ => some u
  | .isComplete u => some u
  | .isValid u => some u
  | .getId u => some u
  | .getAddress u => some u
  | .getData u => some u
  | .getCommand u => some u
  | .getFrameType u => some u

/-- `i` is a NEW of unit `u`. -/
def Sys2Proof.Machine.renews (u : Nat) : Instr → Prop
  | .new v _ => v = u
  | _ => False

/-- `i` is one of the seven accessors of unit `u` (44_decoder_decode.md section 3). -/
def Sys2Proof.Machine.accessors (u : Nat) : List Instr :=
  [.isComplete u, .isValid u, .getId u, .getAddress u, .getData u, .getCommand u, .getFrameType u]

/-- Every instruction that feeds bytes to unit `u`. -/
def Sys2Proof.Machine.feeds (u : Nat) : Instr → Prop
  | .read f => formUnit f = some u
  | .write f => formUnit f = some u
  | .longWrite f => formUnit f = some u
  | .response f => formUnit f = some u
  | .longResponse f => formUnit f = some u
  | .extra _ f => formUnit f = some u
  | .sentinel f => formUnit f = some u
  | .otherByte _ f => formUnit f = some u
  | .start v => v = u
  | .esc v => v = u
  | .consume v _ => v = u
  | _ => False

/-- The unstuffing step (R104) over a byte sequence: the flag at the end and the bytes appended. -/
def Sys2Proof.Machine.unstuffAll (cfg : Cfg) : Bool → List Byte → Bool × List Byte
  | esc, [] => (esc, [])
  | esc, b :: t =>
    match unstuff1 cfg esc b with
    | (e, none) => unstuffAll cfg e t
    | (e, some x) => ((unstuffAll cfg e t).1, x :: (unstuffAll cfg e t).2)

/-- The count an error raised in CONSUME carries, `n` bytes later (R158). -/
def Sys2Proof.Machine.laterError (n : Nat) : CodecError → CodecError
  | .checksumMismatch rx ck i => .checksumMismatch rx ck (n + i)
  | .unknownCommand c i => .unknownCommand c (n + i)
  | .badLength L i => .badLength L (n + i)
  | .notComplete => .notComplete
  | .spent => .spent
  | .encBadCommand c => .encBadCommand c
  | .encLengthOverflow L W => .encLengthOverflow L W
  | .noInstance => .noInstance

/-- A reply of CONSUME with its count taken from `n` bytes earlier (R158, R159). -/
def Sys2Proof.Machine.laterReply (n : Nat) : Reply → Reply
  | .returned (.count i) => .returned (.count (n + i))
  | .raised e => .raised (laterError n e)
  | r => r

/-- Two equal-length byte sequences that differ in exactly one bit: bit `j` of byte `k` (R120). -/
def Sys2Proof.Machine.flipBit (s : List Byte) (k j : Nat) : List Byte :=
  s.set k (s.getD k 0 ^^^ (1#8 <<< j))

/-- The hypothesis of rule R120 on `CK`: it separates any two equal-length inputs that differ in one bit. -/
def Sys2Proof.Machine.SeparatesOneBit (ck : Checksum) : Prop :=
  ∀ (x : List Byte) (k j : Nat), k < x.length → j < 8 → checksum ck (flipBit x k j) ≠ checksum ck x

/-! ### The machine: reset, step, the table's words -/

/-- Reset leaves a legal state in which no unit has been given NEW (70_reset_and_hazards.md R231). The
empty queue, the idle reply and the configuration of the reset state are the model's choice (log entries
1 to 7). -/
def Obligations.ResetIsLegalAndHasNoInstance : Prop :=
  State.reset.Inv ∧ ∀ u, State.reset.unit u = none

/-- A step runs the instruction the host's next request stands for, after taking the request off the
queue; with no request nothing happens (R209). The spec gives the block no fetch (R26): the request queue is
the model's choice (log entry 6), and so are the byte words and the two refusals of a byte word that is no
row of the table, `emptyWord` and `tokenWithTail` (log entry 11). -/
def Obligations.StepRunsTheFetchedInstruction : Prop :=
  ∀ (s : State) (rest : List Request),
    (s.pending = [] → step s = .next s) ∧
    (∀ i, s.pending = .call i :: rest → step s = exec i { s with pending := rest }) ∧
    (∀ u bytes i, s.pending = .wire u bytes :: rest → decode s.cfg u bytes = .ok i →
      step s = exec i { s with pending := rest }) ∧
    (∀ u, s.pending = .wire u [] :: rest → step s = .refused .emptyWord) ∧
    (∀ u b x tail, isReserved s.cfg b = true → s.pending = .wire u (b :: x :: tail) :: rest →
      step s = .refused .tokenWithTail)

/-- The words of the opcode table decode to the rows they stand for (R80, R82, R100). The values are the
table's (PRESUMED, log entry 1). The model's choice are the receive form at unit 0 as the instruction of a
command's word (log entry 9), and the seven zero operand bytes after it and the one-byte token words (log
entry 11). -/
def Obligations.TableWordsDecodeToTheirRows : Prop :=
  decodeTableWord 8 0x01 = some (.read (.recv 0 [0, 0, 0, 0, 0, 0, 0])) ∧
  decodeTableWord 8 0x06 = some (.longResponse (.recv 0 [0, 0, 0, 0, 0, 0, 0])) ∧
  decodeTableWord 8 0xFF = some (.sentinel (.recv 0 [0, 0, 0, 0, 0, 0, 0])) ∧
  decodeTableWord 8 0x2B = some (.start 0) ∧
  decodeTableWord 8 0x2D = some (.esc 0)

/-- Decode and encode agree: a well-formed instruction that has a byte word is read back from it, at its
unit, with every byte of its body. -/
def Obligations.DecodeInvertsEncode : Prop :=
  ∀ (cfg : Cfg) (i : Instr), i.wf cfg = true → i.hasWord cfg = true →
    ∃ u bytes, encode cfg i = some (u, bytes) ∧ decode cfg u bytes = .ok i

/-- The other direction: every byte word the decoder reads is the word of the instruction it gives, which is
well formed, so each word has one meaning and no byte of it is lost. -/
def Obligations.EncodeInvertsDecode : Prop :=
  ∀ (cfg : Cfg) (u : Nat) (bytes : List Byte) (i : Instr), decode cfg u bytes = .ok i →
    encode cfg i = some (u, bytes) ∧ i.wf cfg = true ∧ i.hasWord cfg = true

/-- The two forms of a wire command (log entry 9): sending it is ENC of its code, and its frame arriving at
a unit, in any status of the unit, is CONSUME of the frame's wire form (R70, R82). A token arriving is
CONSUME of that one byte. -/
def Obligations.WireRowsAreEncAndConsume : Prop :=
  ∀ (s : State) (a : EncOperands) (u : Nat) (body : List Byte),
    (∀ p ∈ [(Instr.read, s.cfg.cmdRead), (.write, s.cfg.cmdWrite), (.longWrite, s.cfg.cmdLongWrite),
        (.response, s.cfg.cmdResponse), (.longResponse, s.cfg.cmdLongResponse),
        (.sentinel, s.cfg.cmdNone)],
      exec (p.1 (.send a)) s = exec (.enc p.2 a) s ∧
      exec (p.1 (.recv u body)) s =
        exec (.consume u (s.cfg.start :: stuff s.cfg (p.2 :: body))) s) ∧
    (∀ x, ∀ k ∈ [Instr.extra x, .otherByte x],
      exec (k (.send a)) s = exec (.enc x a) s ∧
      exec (k (.recv u body)) s = exec (.consume u (s.cfg.start :: stuff s.cfg (x :: body))) s) ∧
    exec (.start u) s = exec (.consume u [s.cfg.start]) s ∧
    exec (.esc u) s = exec (.consume u [s.cfg.esc]) s

/-! ### Escape logic (40_escape.md) -/

/-- R103: the length law of stuffing. -/
def Obligations.StuffLengthLaw : Prop :=
  ∀ (cfg : Cfg) (s : List Byte),
    (stuff cfg s).length = s.length + (s.filter fun b => b = cfg.start ∨ b = cfg.esc).length ∧
    s.length ≤ (stuff cfg s).length ∧ (stuff cfg s).length ≤ 2 * s.length

/-- R107: unstuffing the stuffed bytes from a clear flag appends exactly the bytes, and ends with the
flag clear. -/
def Obligations.UnstuffInvertsStuff : Prop :=
  ∀ (cfg : Cfg) (s : List Byte), unstuffAll cfg false (stuff cfg s) = (false, s)

/-- R108: an escape before a byte that is not reserved is accepted, exactly as if it had not been there,
so `UNSTUFF1` is not injective; and the encoder never emits such an escape: in stuffed bytes, whatever
follows an escape that sets the flag is reserved. -/
def Obligations.NeedlessEscapeIsAccepted : Prop :=
  (∀ (cfg : Cfg) (x : Byte) (t : List Byte), x ≠ cfg.start → x ≠ cfg.esc →
    unstuffAll cfg false (cfg.esc :: x :: t) = unstuffAll cfg false (x :: t)) ∧
  (∀ (cfg : Cfg) (s a b : List Byte) (x : Byte), stuff cfg s = a ++ cfg.esc :: x :: b →
    (unstuffAll cfg false a).1 = false → x = cfg.start ∨ x = cfg.esc)

/-! ### The encoder (42_encoder.md) -/

/-- The common algorithm of ENC (R127 to R133) for a known command whose declared length fits: the wire
form of `[cmd] ++ be_W(L) ++ body ++ be_2(CK)`, nothing else changed. -/
def Obligations.EncReturnsTheWireForm : Prop :=
  ∀ (s : State) (cmd : Byte) (a : EncOperands), isKnown s.cfg cmd = true →
    let P := if cmd = s.cfg.cmdRead then [] else a.payload
    let W := if cmd = s.cfg.cmdLongWrite ∨ cmd = s.cfg.cmdLongResponse then 2 else 1
    let pre := cmd :: frameRest s.cfg W a.ft a.addr a.id P
    frameLength s.cfg a.ft P < 256 ^ W →
      exec (.enc cmd a) s =
        .next (s.returns (.wire (s.cfg.start :: stuff s.cfg (pre ++ checksumField s.cfg pre))))

/-- R130, R206: ENC of a known command whose declared length does not fit the length field is refused with
the length and the width; nothing is truncated and nothing is changed. -/
def Obligations.EncRefusesLengthsThatDoNotFit : Prop :=
  ∀ (s : State) (cmd : Byte) (a : EncOperands), isKnown s.cfg cmd = true →
    let P := if cmd = s.cfg.cmdRead then [] else a.payload
    let W := if cmd = s.cfg.cmdLongWrite ∨ cmd = s.cfg.cmdLongResponse then 2 else 1
    256 ^ W ≤ frameLength s.cfg a.ft P →
      exec (.enc cmd a) s = .next (s.refuses (.encLengthOverflow (frameLength s.cfg a.ft P) W))

/-- R126 with R210 (d): ENC of a byte outside KNOWN, the sentinel included, is refused with the byte
before any other test, in all its spellings, and produces no bytes. -/
def Obligations.EncRefusesUnknownCommands : Prop :=
  ∀ (s : State) (a : EncOperands),
    (∀ cmd, isKnown s.cfg cmd = false → exec (.enc cmd a) s = .next (s.refuses (.encBadCommand cmd))) ∧
    exec (.sentinel (.send a)) s = .next (s.refuses (.encBadCommand s.cfg.cmdNone)) ∧
    (∀ b, Instr.wf s.cfg (.otherByte b (.send a)) = true →
      exec (.otherByte b (.send a)) s = .next (s.refuses (.encBadCommand b)))

/-- R135: READ, standard or plant: the payload is dropped, one length byte. -/
def Obligations.ReadSendReturnsItsFrame : Prop :=
  ∀ (s : State) (a : EncOperands),
    let L := ftValue s.cfg a.ft + addrSize a.ft + 4
    let pre := [s.cfg.cmdRead, BitVec.ofNat 8 L] ++ addressBytes a.ft a.addr ++ be 4 a.id.toNat
    (L ≤ 255 → exec (.read (.send a)) s =
      .next (s.returns (.wire (s.cfg.start :: stuff s.cfg (pre ++ checksumField s.cfg pre))))) ∧
    (255 < L → exec (.read (.send a)) s = .next (s.refuses (.encLengthOverflow L 1))) ∧
    (a.ft = .standard → L ≤ 255)

/-- R136, R138, R140: WRITE, RESPONSE and the members of CMD_EXTRA. -/
def Obligations.ShortCommandsSendReturnTheirFrame : Prop :=
  ∀ (s : State) (a : EncOperands),
    SendsShort s (.write (.send a)) s.cfg.cmdWrite a ∧
    SendsShort s (.response (.send a)) s.cfg.cmdResponse a ∧
    ∀ x, x ∈ s.cfg.cmdExtra → SendsShort s (.extra x (.send a)) x a

/-- R137, R139: LONG_WRITE and LONG_RESPONSE. -/
def Obligations.LongCommandsSendReturnTheirFrame : Prop :=
  ∀ (s : State) (a : EncOperands),
    SendsLong s (.longWrite (.send a)) s.cfg.cmdLongWrite a ∧
    SendsLong s (.longResponse (.send a)) s.cfg.cmdLongResponse a

/-- R134: ENC is a function of its operands and cfg; it reads no decoder state, and operands that differ
only in the payload of a read-request or the address of a standard frame give identical output. -/
def Obligations.EncOutputDependsOnlyOnEffectiveOperands : Prop :=
  ∀ (s t : State) (cmd : Byte) (a b : EncOperands), s.cfg = t.cfg →
    a.id = b.id → a.ft = b.ft →
    (cmd = s.cfg.cmdRead ∨ a.payload = b.payload) →
    (a.ft = .standard ∨ a.addr = b.addr) →
    ∃ r, exec (.enc cmd a) s = .next { s with reply := r } ∧
      exec (.enc cmd b) t = .next { t with reply := r }

/-- R142: the wire form begins with START, and START occurs in it again only directly after an ESC; a
fresh unit given it starts on the first byte. -/
def Obligations.WireFormHoldsNoBareStart : Prop :=
  ∀ (s t : State) (cmd : Byte) (a : EncOperands) (w : List Byte),
    exec (.enc cmd a) s = .next t → t.reply = .returned (.wire w) →
    w.head? = some s.cfg.start ∧
    (∀ k, w[k + 1]? = some s.cfg.start → w[k]? = some s.cfg.esc) ∧
    (∀ u ft, s.unit u = some (Decoder.fresh ft) →
      exec (.consume u (w.take 1)) s =
        .next ((s.setUnit u { Decoder.fresh ft with buf := [s.cfg.start] }).returns (.count 1)))

/-- 30_encoding.md R86: the sizes of what ENC emits. -/
def Obligations.EncodedFrameSizes : Prop :=
  ∀ (s t : State) (cmd : Byte) (a : EncOperands) (w : List Byte),
    exec (.enc cmd a) s = .next t → t.reply = .returned (.wire w) →
    let N := if cmd = s.cfg.cmdRead then 0 else a.payload.length
    let size := 1 + lengthWidth s.cfg cmd + addrSize a.ft + 4 + N + 2
    8 ≤ size ∧ size ≤ 65540 ∧ 1 + size ≤ w.length ∧ w.length ≤ 1 + 2 * size

/-! ### NEW and the units -/

/-- R39, R145, R230: NEW, in any status or on no instance, installs the reset values with the given frame
type; the status is SEEK; every other unit, cfg and the queue stay. -/
def Obligations.NewInstallsTheResetValues : Prop :=
  ∀ (s : State) (u : Nat) (ft : FrameType), ∃ t, exec (.new u ft) s = .next t ∧
    t.unit u = some { ft := ft, buf := [], esc := false, target := none, complete := false,
                      crcOk := false, fault := .none, cmd := .none, addr := 0, id := 0, data := [] } ∧
    (Decoder.fresh ft).status = some .seek ∧
    (∀ v, v ≠ u → t.unit v = s.unit v) ∧
    t.cfg = s.cfg ∧ t.pending = s.pending ∧ t.reply = .returned .unit

/-- 70_reset_and_hazards.md R231: every decoder port but NEW refuses a unit never given NEW. -/
def Obligations.EveryPortButNewNeedsAnInstance : Prop :=
  ∀ (s : State) (u : Nat) (i : Instr), s.unit u = none → drivenUnit i = some u → ¬ renews u i →
    exec i s = .next (s.refuses .noInstance)

/-- R62, R36, R20: an instruction changes no unit but the one it drives (the encoder's change none), no
byte of any other unit's buffer, not cfg and not the queue. -/
def Obligations.InstructionsTouchOnlyTheirUnit : Prop :=
  ∀ (s t : State) (i : Instr), exec i s = .next t →
    t.cfg = s.cfg ∧ t.pending = s.pending ∧
    ∀ v, drivenUnit i ≠ some v → t.unit v = s.unit v

/-- R213, R214: a terminal unit is left only by NEW; anything that feeds it is refused with Spent, which
changes nothing, and no other instruction changes it. -/
def Obligations.TerminalUnitLeftOnlyByNew : Prop :=
  ∀ (s : State) (u : Nat) (d : Decoder) (i : Instr), s.unit u = some d → d.complete = true →
    (feeds u i → exec i s = .next (s.refuses .spent)) ∧
    (¬ renews u i → ∀ t, exec i s = .next t → t.unit u = some d)

/-- R33, R63, R27: while a unit lives its buffer only grows at the end and its frame type stays. -/
def Obligations.BufferIsAppendOnly : Prop :=
  ∀ (s t : State) (u : Nat) (d : Decoder) (i : Instr), s.unit u = some d → ¬ renews u i →
    exec i s = .next t → ∃ e, t.unit u = some e ∧ d.buf <+: e.buf ∧ e.ft = d.ft

/-! ### The per-byte rules (43_decoder_consume.md) -/

/-- R149: noise before a start token is discarded, counted and no error; the start token becomes the first
buffer entry with `esc` not touched; a second start token in a row is the command byte. -/
def Obligations.NoiseIsDiscardedUntilStart : Prop :=
  ∀ (s : State) (u : Nat) (d : Decoder) (g : List Byte), s.unit u = some d → d.complete = false →
    d.buf = [] → s.cfg.start ∉ g →
    exec (.consume u g) s = .next ((s.setUnit u d).returns (.count g.length)) ∧
    exec (.consume u (g ++ [s.cfg.start])) s =
      .next ((s.setUnit u { d with buf := [s.cfg.start] }).returns (.count (g.length + 1))) ∧
    (d.target = none → exec (.consume u (g ++ [s.cfg.start, s.cfg.start])) s =
      .next ((s.setUnit u { d with buf := [s.cfg.start, s.cfg.start], esc := false }).returns
        (.count (g.length + 2))))

/-- R149 and R109: the START token opens a frame at a unit with an empty buffer; inside a frame, away from
the header's and the frame's end, it is appended like any other byte. -/
def Obligations.StartTokenOpensOrIsData : Prop :=
  ∀ (s : State) (u : Nat) (d : Decoder), s.unit u = some d → d.complete = false →
    (d.buf = [] → exec (.start u) s =
      .next ((s.setUnit u { d with buf := [s.cfg.start] }).returns (.count 1))) ∧
    (d.buf ≠ [] → d.buf.length ≠ 3 → (∀ t, d.target = some t → d.buf.length + 1 ≠ t + 2) →
      exec (.start u) s =
        .next ((s.setUnit u { d with buf := d.buf ++ [s.cfg.start], esc := false }).returns (.count 1)))

/-- R105, R150, R151: the ESC token is noise at an empty buffer, is dropped with `esc` set inside a frame,
and is appended verbatim when `esc` is already set (away from the header's and the frame's end). -/
def Obligations.EscTokenIsDroppedOrVerbatim : Prop :=
  ∀ (s : State) (u : Nat) (d : Decoder), s.unit u = some d → d.complete = false →
    (d.buf = [] → exec (.esc u) s = .next ((s.setUnit u d).returns (.count 1))) ∧
    (d.buf ≠ [] → d.esc = false →
      exec (.esc u) s = .next ((s.setUnit u { d with esc := true }).returns (.count 1))) ∧
    (d.buf ≠ [] → d.esc = true → d.buf.length ≠ 3 →
      (∀ t, d.target = some t → d.buf.length + 1 ≠ t + 2) →
      exec (.esc u) s =
        .next ((s.setUnit u { d with buf := d.buf ++ [s.cfg.esc], esc := false }).returns (.count 1)))

/-- R152, R153, R154: the fourth buffer byte fixes the target from the width and the declared length, or
ends the unit with BadLength when the length is below the frame-type value. The four bytes reach a fresh
unit as `[START] ++ STUFF([c, x, y])`; bytes after a BadLength are left to the host. -/
def Obligations.FourthByteSetsTheTarget : Prop :=
  ∀ (s : State) (u : Nat) (ft : FrameType) (c x y : Byte) (later : List Byte),
    s.unit u = some (Decoder.fresh ft) →
    let long := c = s.cfg.cmdLongWrite ∨ c = s.cfg.cmdLongResponse
    let W := if long then 2 else 1
    let L := if long then x.toNat * 256 + y.toNat else x.toNat
    let wire := s.cfg.start :: stuff s.cfg [c, x, y]
    (ftValue s.cfg ft ≤ L → exec (.consume u wire) s =
      .next ((s.setUnit u { Decoder.fresh ft with
        buf := [s.cfg.start, c, x, y], target := some (L - ftValue s.cfg ft + W + 2) }).returns
        (.count wire.length))) ∧
    (L < ftValue s.cfg ft → exec (.consume u (wire ++ later)) s =
      .next ((s.setUnit u (failedUnit ft [s.cfg.start, c, x, y] none false .badLength)).raises
        (.badLength L wire.length)))

/-- R146, R157, R158: CONSUME on a legal instance that is not complete answers, whatever the chunk: a count
that is at most the chunk's length, and the whole length when the unit is still not complete; or an error
that carries such a count and leaves the unit complete and not valid. -/
def Obligations.ConsumeCountsWhatItTakes : Prop :=
  ∀ (s : State) (u : Nat) (d : Decoder) (chunk : List Byte), s.Inv → s.unit u = some d →
    d.complete = false →
    ∃ t e, exec (.consume u chunk) s = .next t ∧ t.unit u = some e ∧
      ((∃ n, t.reply = .returned (.count n) ∧ n ≤ chunk.length ∧
          (e.complete = false → n = chunk.length) ∧
          (e.complete = true → e.status = some .valid)) ∨
       (∃ err n, t.reply = .raised err ∧ n ≤ chunk.length ∧
          e.complete = true ∧ e.status ≠ some .valid ∧
          ((∃ rx ck, err = .checksumMismatch rx ck n) ∨ (∃ c, err = .unknownCommand c n) ∨
            (∃ L, err = .badLength L n))))

/-- R156: the bytes after the one that completes the frame do not matter and are not counted: a CONSUME
that made the unit complete answers the same state when more bytes follow in the chunk. -/
def Obligations.LeftoverBytesStayWithTheHost : Prop :=
  ∀ (s t : State) (u : Nat) (d e : Decoder) (chunk later : List Byte), s.unit u = some d →
    d.complete = false → exec (.consume u chunk) s = .next t → t.unit u = some e → s.Inv →
    e.complete = true → exec (.consume u (chunk ++ later)) s = .next t

/-- R159: chunking invariance. Consuming `x` and then, if the unit is still not complete, `y`, is consuming
`x ++ y`: the same state, the counts added up, an error the same with its count moved by `x`'s length. -/
def Obligations.ChunkingInvariance : Prop :=
  ∀ (s s1 : State) (u : Nat) (d e : Decoder) (x y : List Byte), s.Inv → s.unit u = some d →
    d.complete = false → exec (.consume u x) s = .next s1 → s1.unit u = some e →
    (e.complete = true → exec (.consume u (x ++ y)) s = .next s1) ∧
    (e.complete = false → ∃ s2, exec (.consume u y) s1 = .next s2 ∧
      exec (.consume u (x ++ y)) s = .next { s2 with reply := laterReply x.length s2.reply })

/-! ### Whole frames (42_encoder.md section 3, 44_decoder_decode.md) -/

/-- R141: round trip. A fresh unit that consumes what ENC returned takes exactly its length and holds the
command, the id, the effective payload, the effective address and the frame type, fully valid. -/
def Obligations.EncodedFrameDecodesBack : Prop :=
  ∀ (s t : State) (u : Nat) (cmd : Byte) (a : EncOperands) (w : List Byte),
    exec (.enc cmd a) s = .next t → t.reply = .returned (.wire w) →
    s.unit u = some (Decoder.fresh a.ft) →
    ∃ d, exec (.consume u w) s = .next ((s.setUnit u d).returns (.count w.length)) ∧
      d.fullyValid = true ∧ d.status = some .valid ∧ d.cmd = .code cmd ∧ d.id = a.id ∧
      d.data = (if cmd = s.cfg.cmdRead then [] else a.payload) ∧
      d.addr = shownAddress a.ft a.addr ∧ d.ft = a.ft

/-- R160: resync tolerance. Noise without a START value before an encoded frame is counted and otherwise
ignored, and bytes after the frame are left. Where the bytes before the frame hold a START value, the unit
starts there: the noise before that value is counted and ignored, whatever `x` follows it. -/
def Obligations.NoiseBeforeAFrameIsIgnored : Prop :=
  ∀ (s t : State) (u : Nat) (cmd : Byte) (a : EncOperands) (w g later : List Byte),
    exec (.enc cmd a) s = .next t → t.reply = .returned (.wire w) →
    s.unit u = some (Decoder.fresh a.ft) → s.cfg.start ∉ g →
    ∃ d, exec (.consume u w) s = .next ((s.setUnit u d).returns (.count w.length)) ∧
      d.status = some .valid ∧
      exec (.consume u (g ++ w ++ later)) s =
        .next ((s.setUnit u d).returns (.count (g.length + w.length))) ∧
      ∀ x, ∃ t', exec (.consume u (s.cfg.start :: x)) s = .next t' ∧
        exec (.consume u (g ++ s.cfg.start :: x)) s =
          .next { t' with reply := laterReply g.length t'.reply }

/-- R186 to R191: a frame of each command arriving at a fresh unit, with any payload its length field can
declare (a read-request's too, D23), is decoded: every register of the unit, and the count. -/
def Obligations.ReceivedFramesAreDecoded : Prop :=
  ∀ (s : State) (u : Nat) (ft : FrameType) (addr id : Word) (payload : List Byte),
    DecodesFrame s .read s.cfg.cmdRead 1 u ft addr id payload ∧
    DecodesFrame s .write s.cfg.cmdWrite 1 u ft addr id payload ∧
    DecodesFrame s .longWrite s.cfg.cmdLongWrite 2 u ft addr id payload ∧
    DecodesFrame s .response s.cfg.cmdResponse 1 u ft addr id payload ∧
    DecodesFrame s .longResponse s.cfg.cmdLongResponse 2 u ft addr id payload ∧
    ∀ x, x ∈ s.cfg.cmdExtra → DecodesFrame s (.extra x) x 1 u ft addr id payload

/-- R173, D10, R210 (c): a frame whose checksum matches and whose command byte is the sentinel or no
command at all ends in UnknownCommand, framed with one length byte, whatever its declared length. -/
def Obligations.ReceivedUnknownCommandsAreReported : Prop :=
  ∀ (s : State) (u : Nat) (ft : FrameType) (x : Byte) (rest : List Byte),
    s.unit u = some (Decoder.fresh ft) → x.toNat = ftValue s.cfg ft + rest.length →
    ∀ (c : Byte) (i : CommandForm → Instr),
      (c = s.cfg.cmdNone ∧ i = .sentinel ∨
        i = .otherByte c ∧ Instr.wf s.cfg (.otherByte c (.recv u [])) = true) →
      let body := x :: rest ++ checksumField s.cfg (c :: x :: rest)
      exec (i (.recv u body)) s = .next ((s.setUnit u
        (failedUnit ft (s.cfg.start :: c :: body) (some (rest.length + 3)) true .unknownCommand)).raises
        (.unknownCommand c (1 + (stuff s.cfg (c :: body)).length)))

/-- R172, R118: a frame of any command byte whose checksum field is not the checksum of the covered bytes
ends in ChecksumMismatch with both values and the count, before any other check; no field is written. -/
def Obligations.ChecksumMismatchIsReported : Prop :=
  ∀ (s : State) (u : Nat) (ft : FrameType) (c : Byte) (rest : List Byte) (rx : Half),
    let W := lengthWidth s.cfg c
    let L := ftValue s.cfg ft + rest.length
    let pre := c :: be W L ++ rest
    s.unit u = some (Decoder.fresh ft) → L < 256 ^ W → rx ≠ checksum s.cfg.ck pre →
    exec (.consume u (s.cfg.start :: stuff s.cfg (pre ++ be 2 rx.toNat))) s = .next ((s.setUnit u
      (failedUnit ft (s.cfg.start :: pre ++ be 2 rx.toNat) (some (rest.length + W + 2)) false
        .checksumMismatch)).raises
      (.checksumMismatch rx (checksum s.cfg.ck pre)
        (1 + (stuff s.cfg (pre ++ be 2 rx.toNat)).length)))

/-- R174: a frame of a known command whose checksum matches but whose body is too short for the address and
the id ends in BadLength with the declared length and the count. -/
def Obligations.ShortBodyIsReported : Prop :=
  ∀ (s : State) (u : Nat) (ft : FrameType) (c : Byte) (rest : List Byte),
    let W := lengthWidth s.cfg c
    let L := ftValue s.cfg ft + rest.length
    let pre := c :: be W L ++ rest
    let body := pre ++ checksumField s.cfg pre
    s.unit u = some (Decoder.fresh ft) → L < 256 ^ W → isKnown s.cfg c = true →
    rest.length < addrSize ft + 4 →
    exec (.consume u (s.cfg.start :: stuff s.cfg body)) s = .next ((s.setUnit u
      (failedUnit ft (s.cfg.start :: body) (some (rest.length + W + 2)) true .badLength)).raises
      (.badLength L (1 + (stuff s.cfg body).length)))

/-- R120 (with conflict C6): one flipped bit in the address, id or payload of an encoded frame, under the
rule's hypothesis on CK, and one flipped bit in its checksum field, under none, leave the unit complete,
not valid, in CRC_FAILED. -/
def Obligations.OneFlippedBitFailsTheChecksum : Prop :=
  ∀ (s : State) (u : Nat) (c : Byte) (ft : FrameType) (addr id : Word) (payload : List Byte) (j : Nat),
    let W := lengthWidth s.cfg c
    let pre := c :: frameRest s.cfg W ft addr id payload
    s.unit u = some (Decoder.fresh ft) → frameLength s.cfg ft payload < 256 ^ W →
    (∀ k, SeparatesOneBit s.cfg.ck → 1 + W ≤ k → k < pre.length → j < 8 →
      ∃ t d, exec (.consume u (s.cfg.start :: stuff s.cfg (flipBit pre k j ++ checksumField s.cfg pre))) s
          = .next t ∧ t.unit u = some d ∧ d.status = some .crcFailed ∧ d.complete = true ∧
        d.fullyValid = false) ∧
    (∀ k, k < 2 → j < 8 →
      ∃ t d, exec (.consume u (s.cfg.start :: stuff s.cfg (pre ++ flipBit (checksumField s.cfg pre) k j))) s
          = .next t ∧ t.unit u = some d ∧ d.status = some .crcFailed ∧ d.complete = true ∧
        d.fullyValid = false)

/-! ### Accessors (44_decoder_decode.md section 3) -/

/-- R178, R179, R185: the three queries that never fail on an instance, their values, and that they change
nothing. -/
def Obligations.QueriesAnswerInEveryStatus : Prop :=
  ∀ (s : State) (u : Nat) (d : Decoder), s.unit u = some d →
    exec (.isComplete u) s = .next (s.returns (.bool d.complete)) ∧
    exec (.isValid u) s = .next (s.returns (.bool (d.complete && d.crcOk && decide (d.fault = .none)))) ∧
    exec (.getFrameType u) s = .next (s.returns (.frameType d.ft))

/-- R180, R181, R182, R184 under the contract R183: the register once the unit is complete, NotComplete
before; nothing is changed either way. -/
def Obligations.FieldAccessorsFollowTheContract : Prop :=
  ∀ (s : State) (u : Nat) (d : Decoder), s.unit u = some d →
    (d.complete = true →
      exec (.getId u) s = .next (s.returns (.word d.id)) ∧
      exec (.getAddress u) s = .next (s.returns (.word d.addr)) ∧
      exec (.getData u) s = .next (s.returns (.bytes d.data)) ∧
      exec (.getCommand u) s = .next (s.returns (.command d.cmd))) ∧
    (d.complete = false →
      ∀ i ∈ [Instr.getId u, .getAddress u, .getData u, .getCommand u],
        exec i s = .next (s.refuses .notComplete))

/-- R183: in a legal state, a complete unit that is not valid answers zero and empty values, and the
sentinel as its command. -/
def Obligations.FailedUnitsAnswerZeroAndEmpty : Prop :=
  ∀ (s : State) (u : Nat) (d : Decoder), s.Inv → s.unit u = some d → d.complete = true →
    d.status ≠ some .valid →
    exec (.getId u) s = .next (s.returns (.word 0)) ∧
    exec (.getAddress u) s = .next (s.returns (.word 0)) ∧
    exec (.getData u) s = .next (s.returns (.bytes [])) ∧
    exec (.getCommand u) s = .next (s.returns (.command .none)) ∧
    exec (.isValid u) s = .next (s.returns (.bool false))

/-- 20_memory.md R57: an accessor has no side effect, and repeating it gives the same answer. -/
def Obligations.AccessorsAreIdempotent : Prop :=
  ∀ (s : State) (u : Nat) (i : Instr), i ∈ accessors u →
    ∃ r, exec i s = .next { s with reply := r } ∧
      exec i { s with reply := r } = .next { s with reply := r }

/-! ### Whole-machine rules -/

/-- R35: the invariants of every unit (with the facts of R31 and R34 that complete them) and the canonical
form of the store are kept by every step. -/
def Obligations.StepKeepsTheInvariants : Prop :=
  ∀ s t : State, s.Inv → step s = .next t → t.Inv

/-- R161: DSTEP is total. In a legal state every instruction answers a next state, whatever its operands and
whatever its unit holds, and that state is legal. -/
def Obligations.EveryInstructionAnswersInLegalStates : Prop :=
  ∀ (s : State) (i : Instr), s.Inv → ∃ t, exec i s = .next t ∧ t.Inv

/-- R54: from a legal state no step reads outside a buffer. -/
def Obligations.LegalStatesNeverReadOutside : Prop :=
  ∀ s : State, s.Inv → Sys2Proof.Machine.noFault (step s)

/-- R33, R24: in a legal state every buffer holds at most 65541 bytes, within the capacity, and every
payload at most 65531. -/
def Obligations.BuffersNeverOverflow : Prop :=
  ∀ (s : State) (u : Nat) (d : Decoder), s.Inv → s.unit u = some d →
    d.buf.length ≤ 65541 ∧ d.buf.length ≤ s.cfg.bufCap ∧ d.data.length ≤ 65531

/-- R161, R241: a unit in BODY is at most 65537 appends away from its end, each costing at most two input
bytes: any chunk of twice the missing bytes makes it complete. -/
def Obligations.BodyEndsWithinTwiceTheMissingBytes : Prop :=
  ∀ (s : State) (u : Nat) (d : Decoder) (T : Nat) (chunk : List Byte), s.Inv → s.unit u = some d →
    d.complete = false → d.target = some T →
    T + 2 - d.buf.length ≤ 65537 ∧
    (2 * (T + 2 - d.buf.length) ≤ chunk.length →
      ∃ t e, exec (.consume u chunk) s = .next t ∧ t.unit u = some e ∧ e.complete = true)

/-- R162: the transitions of the status for one input byte at a legal unit that is not complete, row by
row: `n` is the length of the buffer after an append, `rx` and `own` the two checksums of R171. -/
def Obligations.StatusTransitions : Prop :=
  ∀ (s : State) (u : Nat) (d : Decoder) (b : Byte), s.Inv → s.unit u = some d → d.complete = false →
    ∃ t e, exec (.consume u [b]) s = .next t ∧ t.unit u = some e ∧
      (d.status = some .seek → b ≠ s.cfg.start → e.status = some .seek) ∧
      (d.status = some .seek → b = s.cfg.start → e.status = some .header ∧ e.buf.length = 1) ∧
      (d.status ≠ some .seek → b = s.cfg.esc → d.esc = false →
        e.status = d.status ∧ e.buf = d.buf ∧ e.esc = true) ∧
      (d.status ≠ some .seek → b ≠ s.cfg.esc ∨ d.esc = true →
        e.buf = d.buf ++ [b] ∧ e.esc = false ∧
        (d.status = some .header → d.buf.length < 3 → e.status = some .header) ∧
        (d.status = some .header → d.buf.length = 3 →
          ∀ c l, d.buf[1]? = some c → d.buf[2]? = some l →
          let L := if lengthWidth s.cfg c = 2 then l.toNat * 256 + b.toNat else l.toNat
          if ftValue s.cfg d.ft ≤ L then
            e.status = some .body ∧ e.target = some (L - ftValue s.cfg d.ft + lengthWidth s.cfg c + 2)
          else e.status = some .lenFailed ∧ d.ft = .plant) ∧
        (∀ T, d.status = some .body → d.target = some T → d.buf.length + 1 < T + 2 →
          e.status = some .body) ∧
        (∀ T c, d.status = some .body → d.target = some T → d.buf.length + 1 = T + 2 →
          e.buf[1]? = some c →
          let n := e.buf.length
          let rx := BitVec.ofNat 16 (ube (e.buf.drop (n - 2)))
          let own := checksum s.cfg.ck ((e.buf.drop 1).take (n - 3))
          let B := n - 4 - lengthWidth s.cfg c
          e.status =
            if rx ≠ own then some .crcFailed
            else if isKnown s.cfg c = false then some .cmdFailed
            else if B < addrSize d.ft + 4 then some .lenFailed
            else some .valid))
end

