-- ==== Sys2Proof/Laws/Bytes.lean ====
section
/-! SUPPORT. The laws of the byte sequences and the big-endian primitives (R12, R13). -/

namespace Sys2Proof.Machine

@[simp] theorem be_length (n v : Nat) : (be n v).length = n := by
  induction n with
  | zero => rfl
  | succ n ih => simp [be, ih]

@[simp] theorem ube_nil : ube [] = 0 := rfl

theorem ube_foldl (s : List Byte) (acc : Nat) :
    s.foldl (fun acc b => acc * 256 + b.toNat) acc = acc * 256 ^ s.length + ube s := by
  induction s generalizing acc with
  | nil => simp [ube]
  | cons b s ih =>
    have h0 := ih b.toNat
    have h1 := ih (acc * 256 + b.toNat)
    simp only [ube, List.foldl_cons, List.length_cons, Nat.zero_mul, Nat.zero_add] at *
    rw [h1, h0]
    ring

theorem ube_cons (b : Byte) (s : List Byte) : ube (b :: s) = b.toNat * 256 ^ s.length + ube s := by
  simpa [ube] using ube_foldl s b.toNat

theorem ube_append (s t : List Byte) : ube (s ++ t) = ube s * 256 ^ t.length + ube t := by
  simpa [ube, List.foldl_append] using ube_foldl t (ube s)

theorem ube_lt (s : List Byte) : ube s < 256 ^ s.length := by
  induction s with
  | nil => simp
  | cons b s ih =>
    have hb : b.toNat < 256 := b.isLt
    rw [ube_cons, List.length_cons, pow_succ]
    nlinarith [Nat.mul_le_mul_right (256 ^ s.length) (Nat.succ_le_of_lt hb)]

/-- `ube` is the inverse of `be_N` on the numbers of `n` bytes (R13). -/
theorem ube_be {n v : Nat} (h : v < 256 ^ n) : ube (be n v) = v := by
  induction n generalizing v with
  | zero => simp only [pow_zero] at h; simp [be]; omega
  | succ n ih =>
    have hpos : 0 < 256 ^ n := Nat.pow_pos (by norm_num)
    have hq : v / 256 ^ n < 256 := by
      rw [Nat.div_lt_iff_lt_mul hpos]; rw [pow_succ] at h; linarith
    have hbe : be n (v % 256 ^ n) = be n v := by
      have key : ∀ k, k ≤ n → be k (v % 256 ^ n) = be k v := by
        intro k hk
        induction k with
        | zero => rfl
        | succ k ihk =>
          have hd : 256 ^ n = 256 ^ k * 256 ^ (n - k) := by rw [← pow_add]; congr 1; omega
          have hd2 : 256 ^ (n - k) = 256 * 256 ^ (n - k - 1) := by
            rw [← pow_succ']; congr 1; omega
          simp only [be, ihk (by omega)]
          congr 1
          apply BitVec.eq_of_toNat_eq
          rw [BitVec.toNat_ofNat, BitVec.toNat_ofNat, hd, Nat.mod_mul_right_div_self, hd2]
          exact Nat.mod_mul_right_mod _ _ _
      exact key n le_rfl
    rw [be, ube_cons, be_length, BitVec.toNat_ofNat, ← hbe, ih (Nat.mod_lt _ hpos)]
    rw [Nat.mod_eq_of_lt (by omega)]
    exact Nat.div_add_mod' v (256 ^ n)

theorem ube_be_toNat {w : Nat} (n : Nat) (v : BitVec w) (h : 2 ^ w = 256 ^ n) :
    ube (be n v.toNat) = v.toNat :=
  ube_be (h ▸ v.isLt)

@[simp] theorem ube_be_half (v : Half) : ube (be 2 v.toNat) = v.toNat := ube_be_toNat 2 v (by norm_num)

@[simp] theorem ube_be_word (v : Word) : ube (be 4 v.toNat) = v.toNat := ube_be_toNat 4 v (by norm_num)

theorem slice_eq_some {s r : List Byte} {a b : Nat} :
    slice s a b = some r ↔ a ≤ b ∧ b ≤ s.length ∧ r = (s.drop a).take (b - a) := by
  unfold slice
  split
  · simp only [Option.some.injEq]; constructor
    · rintro rfl; tauto
    · rintro ⟨_, _, rfl⟩; rfl
  · constructor
    · simp
    · rintro ⟨h1, h2, _⟩; omega

theorem slice_of_le {s : List Byte} {a b : Nat} (h1 : a ≤ b) (h2 : b ≤ s.length) :
    slice s a b = some ((s.drop a).take (b - a)) :=
  slice_eq_some.mpr ⟨h1, h2, rfl⟩

/-- The slice of a concatenation that is exactly its middle part. -/
theorem slice_middle (x y z : List Byte) :
    slice (x ++ y ++ z) x.length (x.length + y.length) = some y := by
  rw [slice_of_le (by omega) (by simp)]
  simp [List.append_assoc]

theorem memRead_eq_some {buf : List Byte} {k n v : Nat} :
    memRead buf k n = some v ↔ k + n ≤ buf.length ∧ v = ube ((buf.drop k).take n) := by
  unfold memRead
  constructor
  · intro h
    obtain ⟨r, hr, rfl⟩ := Option.map_eq_some_iff.mp h
    obtain ⟨_, h2, rfl⟩ := slice_eq_some.mp hr
    simp [h2]
  · rintro ⟨h, rfl⟩
    rw [slice_of_le (by omega) h]
    simp

/-- A read inside the buffer (R54) succeeds. -/
theorem memRead_of_le {buf : List Byte} {k n : Nat} (h : k + n ≤ buf.length) :
    memRead buf k n = some (ube ((buf.drop k).take n)) :=
  memRead_eq_some.mpr ⟨h, rfl⟩

/-- The width of a read bounds its value. -/
theorem memRead_lt {buf : List Byte} {k n v : Nat} (h : memRead buf k n = some v) : v < 256 ^ n := by
  obtain ⟨hle, rfl⟩ := memRead_eq_some.mp h
  have := ube_lt ((buf.drop k).take n)
  simpa [show min n (buf.length - k) = n by omega] using this

/-- A read of the middle part of a concatenation. -/
theorem memRead_middle (x y z : List Byte) :
    memRead (x ++ y ++ z) x.length y.length = some (ube y) := by
  rw [memRead, slice_middle, Option.map_some]

/-- A byte appended at the end changes no read of what was there (R33: the buffer is append-only). -/
theorem memRead_append {buf t : List Byte} {k n : Nat} (h : k + n ≤ buf.length) :
    memRead (buf ++ t) k n = memRead buf k n := by
  rw [memRead_of_le h, memRead_of_le (by simp; omega)]
  rw [List.drop_append_of_le_length (by omega), List.take_append_of_le_length (by simp; omega)]

end Sys2Proof.Machine
end

