-- ==== Sys2Proof/Laws/State.lean ====
section
/-! SUPPORT. The small lemmas of the state's records: what each update leaves in each field, the store of
decoder units read after write, and the canonical form every store operation keeps. -/

namespace Sys2Proof.Machine

section Updates

variable (s : State) (u : Nat) (d : Decoder) (v : Value) (e : CodecError)

@[simp] theorem State.setUnit_cfg : (s.setUnit u d).cfg = s.cfg := rfl
@[simp] theorem State.setUnit_units : (s.setUnit u d).units = insertUnit u d s.units := rfl
@[simp] theorem State.setUnit_pending : (s.setUnit u d).pending = s.pending := rfl
@[simp] theorem State.setUnit_reply : (s.setUnit u d).reply = s.reply := rfl
@[simp] theorem State.returns_cfg : (s.returns v).cfg = s.cfg := rfl
@[simp] theorem State.returns_units : (s.returns v).units = s.units := rfl
@[simp] theorem State.returns_pending : (s.returns v).pending = s.pending := rfl
@[simp] theorem State.returns_reply : (s.returns v).reply = .returned v := rfl
@[simp] theorem State.raises_cfg : (s.raises e).cfg = s.cfg := rfl
@[simp] theorem State.raises_units : (s.raises e).units = s.units := rfl
@[simp] theorem State.raises_pending : (s.raises e).pending = s.pending := rfl
@[simp] theorem State.raises_reply : (s.raises e).reply = .raised e := rfl
@[simp] theorem State.refuses_cfg : (s.refuses e).cfg = s.cfg := rfl
@[simp] theorem State.refuses_units : (s.refuses e).units = s.units := rfl
@[simp] theorem State.refuses_pending : (s.refuses e).pending = s.pending := rfl
@[simp] theorem State.refuses_reply : (s.refuses e).reply = .refused e := rfl
@[simp] theorem State.returns_unit : (s.returns v).unit u = s.unit u := rfl
@[simp] theorem State.raises_unit : (s.raises e).unit u = s.unit u := rfl
@[simp] theorem State.refuses_unit : (s.refuses e).unit u = s.unit u := rfl

end Updates

section Registers

variable (d : Decoder) (b : Byte) (t : FrameType)

@[simp] theorem Decoder.append_ft : (d.append b).ft = d.ft := rfl
@[simp] theorem Decoder.append_buf : (d.append b).buf = d.buf ++ [b] := rfl
@[simp] theorem Decoder.append_esc : (d.append b).esc = d.esc := rfl
@[simp] theorem Decoder.append_target : (d.append b).target = d.target := rfl
@[simp] theorem Decoder.append_complete : (d.append b).complete = d.complete := rfl
@[simp] theorem Decoder.append_crcOk : (d.append b).crcOk = d.crcOk := rfl
@[simp] theorem Decoder.append_fault : (d.append b).fault = d.fault := rfl
@[simp] theorem Decoder.append_cmd : (d.append b).cmd = d.cmd := rfl
@[simp] theorem Decoder.append_addr : (d.append b).addr = d.addr := rfl
@[simp] theorem Decoder.append_id : (d.append b).id = d.id := rfl
@[simp] theorem Decoder.append_data : (d.append b).data = d.data := rfl
@[simp] theorem Decoder.fresh_ft : (Decoder.fresh t).ft = t := rfl
@[simp] theorem Decoder.fresh_buf : (Decoder.fresh t).buf = [] := rfl
@[simp] theorem Decoder.fresh_esc : (Decoder.fresh t).esc = false := rfl
@[simp] theorem Decoder.fresh_target : (Decoder.fresh t).target = none := rfl
@[simp] theorem Decoder.fresh_complete : (Decoder.fresh t).complete = false := rfl
@[simp] theorem Decoder.fresh_crcOk : (Decoder.fresh t).crcOk = false := rfl
@[simp] theorem Decoder.fresh_fault : (Decoder.fresh t).fault = .none := rfl
@[simp] theorem Decoder.fresh_cmd : (Decoder.fresh t).cmd = .none := rfl
@[simp] theorem Decoder.fresh_addr : (Decoder.fresh t).addr = 0 := rfl
@[simp] theorem Decoder.fresh_id : (Decoder.fresh t).id = 0 := rfl
@[simp] theorem Decoder.fresh_data : (Decoder.fresh t).data = [] := rfl

end Registers

/-! ### The store of units -/

@[simp] theorem lookupUnit_insertUnit_self (u : Nat) (d : Decoder) (l : List (Nat × Decoder)) :
    lookupUnit u (insertUnit u d l) = some d := by
  induction l with
  | nil => simp [insertUnit, lookupUnit]
  | cons p l ih =>
    unfold insertUnit
    split
    · simp [lookupUnit]
    · split
      · simp [lookupUnit]
      · rename_i _ hne
        simp [lookupUnit, hne, ih]

theorem lookupUnit_insertUnit_ne {u v : Nat} (h : v ≠ u) (d : Decoder) (l : List (Nat × Decoder)) :
    lookupUnit v (insertUnit u d l) = lookupUnit v l := by
  induction l with
  | nil => simp [insertUnit, lookupUnit, h]
  | cons p l ih =>
    unfold insertUnit
    split
    · simp [lookupUnit, h]
    · split
      · rename_i _ heq
        simp [lookupUnit, h, ← heq]
      · simp [lookupUnit, ih]

@[simp] theorem insertUnit_insertUnit (u : Nat) (d e : Decoder) (l : List (Nat × Decoder)) :
    insertUnit u e (insertUnit u d l) = insertUnit u e l := by
  induction l with
  | nil => simp [insertUnit]
  | cons p l ih =>
    obtain ⟨k, x⟩ := p
    by_cases h1 : u < k
    · simp [insertUnit, h1]
    · by_cases h2 : u = k
      · simp [insertUnit, h2]
      · simp [insertUnit, h1, h2, ih]

/-- Every unit number in the store after a write is the written one or was there before. -/
theorem mem_insertUnit_fst {u k : Nat} {d : Decoder} {l : List (Nat × Decoder)}
    (h : k ∈ (insertUnit u d l).map Prod.fst) : k = u ∨ k ∈ l.map Prod.fst := by
  induction l with
  | nil => simpa [insertUnit] using h
  | cons p l ih =>
    obtain ⟨j, x⟩ := p
    by_cases h1 : u < j
    · simpa [insertUnit, h1] using h
    · by_cases h2 : u = j
      · simp only [insertUnit, h2, lt_irrefl, if_false, if_true, List.map_cons, List.mem_cons] at h ⊢
        tauto
      · simp only [insertUnit, h1, h2, if_false, List.map_cons, List.mem_cons] at h ⊢
        rcases h with h | h
        · exact .inr (.inl h)
        · rcases ih h with h | h
          · exact .inl h
          · exact .inr (.inr h)

/-- A write keeps the canonical form of the store. -/
theorem unitsWf_insertUnit {u : Nat} {d : Decoder} {l : List (Nat × Decoder)} (h : unitsWf l) :
    unitsWf (insertUnit u d l) := by
  induction l with
  | nil => simp [unitsWf, insertUnit]
  | cons p l ih =>
    obtain ⟨j, x⟩ := p
    simp only [unitsWf, List.map_cons, List.pairwise_cons] at h
    by_cases h1 : u < j
    · simp only [unitsWf, insertUnit, h1, if_true, List.map_cons, List.pairwise_cons]
      refine ⟨?_, h⟩
      intro a ha
      rcases List.mem_cons.mp ha with rfl | ha
      · exact h1
      · exact lt_trans h1 (h.1 a ha)
    · by_cases h2 : u = j
      · subst h2
        simpa [unitsWf, insertUnit] using h
      · simp only [unitsWf, insertUnit, h1, h2, if_false, List.map_cons, List.pairwise_cons]
        refine ⟨?_, ih h.2⟩
        intro a ha
        rcases mem_insertUnit_fst ha with rfl | ha
        · omega
        · exact h.1 a ha

@[simp] theorem State.unit_setUnit_self (s : State) (u : Nat) (d : Decoder) :
    (s.setUnit u d).unit u = some d :=
  lookupUnit_insertUnit_self u d s.units

theorem State.unit_setUnit_ne (s : State) {u v : Nat} (h : v ≠ u) (d : Decoder) :
    (s.setUnit u d).unit v = s.unit v :=
  lookupUnit_insertUnit_ne h d s.units

@[simp] theorem State.setUnit_setUnit (s : State) (u : Nat) (d e : Decoder) :
    (s.setUnit u d).setUnit u e = s.setUnit u e := by
  simp [State.setUnit]

/-- The store of the reset state is in canonical form. -/
theorem State.reset_unitsWf : unitsWf State.reset.units := by decide

end Sys2Proof.Machine
end

