-- ==== Sys2Proof/Laws/Decoder.lean ====
section
/-! SUPPORT. One lemma for each operation of the decoder that says once everything it can do: the header
read, the decode step, the per-byte step, the loop of CONSUME and the CONSUME port. -/

namespace Sys2Proof.Machine

theorem lengthWidth_cases (cfg : Cfg) (c : Byte) : lengthWidth cfg c = 1 ∨ lengthWidth cfg c = 2 := by
  unfold lengthWidth; split <;> simp

theorem addrSize_cases (ft : FrameType) : addrSize ft = 0 ∨ addrSize ft = 4 := by
  cases ft <;> simp [addrSize]

/-! ### Reading the header (R152) -/

/-- Everything `readHeader` can answer: the command byte at index 1 and the length field at its width. -/
theorem readHeader_eq_some {cfg : Cfg} {buf : List Byte} {c : Byte} {L : Nat} :
    readHeader cfg buf = some (c, L) ↔
      2 + lengthWidth cfg c ≤ buf.length ∧ buf[1]? = some c ∧
        L = ube ((buf.drop 2).take (lengthWidth cfg c)) := by
  have one : ∀ v, memRead buf 1 1 = some v ↔ 2 ≤ buf.length ∧ ∃ b, buf[1]? = some b ∧ v = b.toNat := by
    intro v
    rw [memRead_eq_some]
    match buf with
    | [] => simp
    | [_] => simp
    | _ :: b :: _ => simp [ube]
  unfold readHeader
  constructor
  · intro h
    simp only [Option.bind_eq_bind, Option.bind_eq_some_iff, Option.pure_def, Option.some.injEq,
      Prod.mk.injEq] at h
    obtain ⟨v, hv, L', hL, rfl, rfl⟩ := h
    obtain ⟨h2, b, hb, rfl⟩ := (one v).mp hv
    obtain ⟨hle, hL⟩ := memRead_eq_some.mp hL
    simp only [BitVec.ofNat_toNat, BitVec.setWidth_eq] at *
    exact ⟨hle, hb, hL⟩
  · rintro ⟨hle, hb, rfl⟩
    have h2 : 2 ≤ buf.length := by omega
    have hv := (one c.toNat).mpr ⟨h2, c, hb, rfl⟩
    simp only [Option.bind_eq_bind, hv, Option.bind_some, BitVec.ofNat_toNat, BitVec.setWidth_eq,
      memRead_of_le hle, Option.pure_def]

/-- The header can be read as soon as the buffer holds 4 bytes (R152). -/
theorem readHeader_of_four (cfg : Cfg) {buf : List Byte} (h : 4 ≤ buf.length) :
    ∃ c L, readHeader cfg buf = some (c, L) := by
  have h1 : 1 < buf.length := by omega
  refine ⟨buf[1], _, readHeader_eq_some.mpr ⟨?_, by simp [h1], rfl⟩⟩
  rcases lengthWidth_cases cfg buf[1] with hw | hw <;> omega

/-- The second read of the header gives what the first gave (R63). -/
theorem readHeader_append (cfg : Cfg) {buf t : List Byte} (h : 4 ≤ buf.length) :
    readHeader cfg (buf ++ t) = readHeader cfg buf := by
  obtain ⟨c, L, hr⟩ := readHeader_of_four cfg h
  rw [hr]
  obtain ⟨hle, hc, rfl⟩ := readHeader_eq_some.mp hr
  refine readHeader_eq_some.mpr ⟨by simp; omega, ?_, ?_⟩
  · rw [List.getElem?_append_left (by omega), hc]
  · rw [List.drop_append_of_le_length (by omega), List.take_append_of_le_length (by simp; omega)]

/-- The declared length fits its field (R73). -/
theorem readHeader_lt {cfg : Cfg} {buf : List Byte} {c : Byte} {L : Nat}
    (h : readHeader cfg buf = some (c, L)) : L < 256 ^ lengthWidth cfg c := by
  obtain ⟨hle, _, rfl⟩ := readHeader_eq_some.mp h
  have := ube_lt ((buf.drop 2).take (lengthWidth cfg c))
  simpa [show min (lengthWidth cfg c) (buf.length - 2) = lengthWidth cfg c by omega] using this

/-! ### The decode step (R170) -/

/-- The received checksum of a full buffer (R171). -/
def receivedChecksum (buf : List Byte) : Half :=
  BitVec.ofNat 16 (ube (buf.drop (buf.length - 2)))

/-- The bytes the checksum covers (R117): all but the start token and the trailing two. -/
def coveredBytes (buf : List Byte) : List Byte :=
  (buf.drop 1).take (buf.length - 3)

/-- The unit after a decode step in which every check passed (R175, R176). -/
def committed (cfg : Cfg) (d : Decoder) (c : Byte) : Decoder :=
  { d with
    crcOk := true
    cmd := .code c
    addr := BitVec.ofNat 32 (ube ((d.buf.drop (2 + lengthWidth cfg c)).take (addrSize d.ft)))
    id := BitVec.ofNat 32 (ube ((d.buf.drop (2 + lengthWidth cfg c + addrSize d.ft)).take 4))
    data := (d.buf.drop (2 + lengthWidth cfg c + addrSize d.ft + 4)).take
      (d.buf.length - 2 - (2 + lengthWidth cfg c + addrSize d.ft + 4)) }

/-- Everything the decode step can do on a buffer that holds the frame its header declares: the checks in
the order checksum, command, length (R210 (c)), then the commit. It never reads outside the buffer. -/
theorem decodeStep_eq {cfg : Cfg} {d : Decoder} {c : Byte} {L : Nat} (i : Nat)
    (hr : readHeader cfg d.buf = some (c, L)) (hL : ftValue cfg d.ft ≤ L)
    (hn : d.buf.length = L - ftValue cfg d.ft + lengthWidth cfg c + 4) :
    decodeStep cfg d i = some (
      if receivedChecksum d.buf = checksum cfg.ck (coveredBytes d.buf) then
        if isKnown cfg c then
          if L < ftValue cfg d.ft + addrSize d.ft + 4 then
            takeError { d with crcOk := true } .badLength (.badLength L i)
          else .doneOk (committed cfg d c)
        else takeError { d with crcOk := true } .unknownCommand (.unknownCommand c i)
      else takeError d .checksumMismatch
        (.checksumMismatch (receivedChecksum d.buf) (checksum cfg.ck (coveredBytes d.buf)) i)) := by
  obtain ⟨hle, hc, _⟩ := readHeader_eq_some.mp hr
  have hrx : memRead d.buf (d.buf.length - 2) 2 = some (ube (d.buf.drop (d.buf.length - 2))) := by
    rw [memRead_of_le (by omega), List.take_of_length_le (by simp; omega)]
  have hcov : slice d.buf 1 (d.buf.length - 2) = some (coveredBytes d.buf) := by
    rw [slice_of_le (by omega) (by omega), coveredBytes]
    congr 2
  have h1 : memRead d.buf 1 1 = some c.toNat := by
    rw [memRead_of_le (by omega)]
    match hb : d.buf, hle, hc with
    | [], h, _ => simp at h
    | [_], h, _ => rcases lengthWidth_cases cfg c with hw | hw <;> simp [hw] at h
    | _ :: b :: _, _, hc =>
      simp only [List.getElem?_cons_succ, List.getElem?_cons_zero, Option.some.injEq] at hc
      simp [ube, hc]
  have hcmd : decodeCommand cfg { d with crcOk := true } i = some (
      if isKnown cfg c then
        if L < ftValue cfg d.ft + addrSize d.ft + 4 then
          takeError { d with crcOk := true } .badLength (.badLength L i)
        else .doneOk (committed cfg d c)
      else takeError { d with crcOk := true } .unknownCommand (.unknownCommand c i)) := by
    unfold decodeCommand
    simp only [h1, Option.bind_eq_bind, Option.bind_some, BitVec.ofNat_toNat, BitVec.setWidth_eq, hr,
      Option.pure_def]
    by_cases hk : isKnown cfg c = true
    · simp only [hk, if_true]
      unfold decodeFields
      by_cases hs : L < ftValue cfg d.ft + addrSize d.ft + 4
      · simp [hs]
      · simp only [hs, if_false]
        rw [memRead_of_le (by omega), memRead_of_le (by omega), slice_of_le (by omega) (by omega)]
        simp only [Option.bind_eq_bind, Option.bind_some, Option.pure_def, committed]
        congr 4
        omega
    · simp [hk]
  unfold decodeStep
  simp only [hrx, hcov, Option.bind_eq_bind, Option.bind_some, Option.pure_def, receivedChecksum]
  by_cases heq : BitVec.ofNat 16 (ube (d.buf.drop (d.buf.length - 2))) =
      checksum cfg.ck (coveredBytes d.buf)
  · simp only [heq, if_true, hcmd]
  · simp only [heq, if_false]

/-! ### The per-byte step (R148) -/

/-- The unstuffing step (R104) drops the byte exactly when it is a bare escape token. -/
theorem unstuff1_eq (cfg : Cfg) (esc : Bool) (b : Byte) :
    unstuff1 cfg esc b = if esc = false ∧ b = cfg.esc then (true, none) else (false, some b) := by
  cases esc <;> simp [unstuff1]

/-- While the buffer is empty (R149) a byte starts the frame or is discarded; no flag is touched. -/
theorem dstep_seek {cfg : Cfg} {d : Decoder} (h : d.buf = []) (b : Byte) (i : Nat) :
    dstep cfg d b i = some (.more (if b = cfg.start then d.append cfg.start else d)) := by
  simp [dstep, h]

/-- A bare escape token inside a frame is dropped and sets `esc` (R150). -/
theorem dstep_esc {cfg : Cfg} {d : Decoder} (h : d.buf ≠ []) (he : d.esc = false) (i : Nat) :
    dstep cfg d cfg.esc i = some (.more { d with esc := true }) := by
  simp [dstep, h, unstuff1, he]

/-- Any other byte inside a frame is appended with `esc` cleared (R151). -/
theorem dstep_append {cfg : Cfg} {d : Decoder} {b : Byte} (h : d.buf ≠ [])
    (he : d.esc = true ∨ b ≠ cfg.esc) (i : Nat) :
    dstep cfg d b i = afterAppend cfg ({ d with esc := false }.append b) i := by
  have hn : ¬ (d.esc = false ∧ b = cfg.esc) := by
    rintro ⟨h1, h2⟩; simp_all
  simp [dstep, h, unstuff1_eq, hn]

/-- The header step (R152 to R154), at exactly 4 buffer bytes: the target is set and the unit goes on, or
the declared length is too small for the frame type. The completion check of the same byte is false. -/
theorem afterAppend_header {cfg : Cfg} {d : Decoder} {c : Byte} {L : Nat} (i : Nat)
    (hn : d.buf.length = 4) (hr : readHeader cfg d.buf = some (c, L)) :
    afterAppend cfg d i = some (
      if L < ftValue cfg d.ft then takeError d .badLength (.badLength L i)
      else .more { d with target := some (L - ftValue cfg d.ft + lengthWidth cfg c + 2) }) := by
  unfold afterAppend
  simp only [hn, if_true, hr, Option.bind_eq_bind, Option.bind_some, Option.pure_def]
  by_cases hl : L < ftValue cfg d.ft
  · simp [hl]
  · rcases lengthWidth_cases cfg c with hw | hw <;> simp [hl, completionCheck, hn, hw]

/-- Below the target, or with no target yet, an appended byte only grows the buffer (R155). -/
theorem afterAppend_more {cfg : Cfg} {d : Decoder} (i : Nat) (hn : d.buf.length ≠ 4)
    (ht : ∀ t, d.target = some t → d.buf.length ≠ t + 2) :
    afterAppend cfg d i = some (.more d) := by
  unfold afterAppend completionCheck
  rw [if_neg hn]
  split
  · rfl
  · rename_i t h
    rw [if_neg (ht t h)]

/-- At the target plus 2 the frame is complete and the decode step runs (R155). -/
theorem afterAppend_complete {cfg : Cfg} {d : Decoder} {t : Nat} (i : Nat) (hn : d.buf.length ≠ 4)
    (ht : d.target = some t) (hl : d.buf.length = t + 2) :
    afterAppend cfg d i = decodeStep cfg { d with complete := true } i := by
  unfold afterAppend completionCheck
  rw [if_neg hn, ht]
  simp [hl]

/-! ### The loop of CONSUME (R146) -/

@[simp] theorem consumeLoop_nil (cfg : Cfg) (d : Decoder) (i : Nat) :
    consumeLoop cfg d [] i = some (.returned d i) := rfl

/-- How the loop goes on after one byte, `i` bytes done and `l` left (R146): the unit takes the next byte,
or CONSUME ends here. -/
def loopNext (cfg : Cfg) (l : List Byte) (i : Nat) : Option ByteOutcome → Option ConsumeOutcome
  | none => none
  | some (.more d) => consumeLoop cfg d l i
  | some (.doneOk d) => some (.returned d i)
  | some (.doneErr d e) => some (.raised d e)

@[simp] theorem loopNext_none (cfg : Cfg) (l : List Byte) (i : Nat) : loopNext cfg l i none = none := rfl
@[simp] theorem loopNext_more (cfg : Cfg) (l : List Byte) (i : Nat) (d : Decoder) :
    loopNext cfg l i (some (.more d)) = consumeLoop cfg d l i := rfl
@[simp] theorem loopNext_doneOk (cfg : Cfg) (l : List Byte) (i : Nat) (d : Decoder) :
    loopNext cfg l i (some (.doneOk d)) = some (.returned d i) := rfl
@[simp] theorem loopNext_doneErr (cfg : Cfg) (l : List Byte) (i : Nat) (d : Decoder) (e : CodecError) :
    loopNext cfg l i (some (.doneErr d e)) = some (.raised d e) := rfl

theorem consumeLoop_cons (cfg : Cfg) (d : Decoder) (b : Byte) (l : List Byte) (i : Nat) :
    consumeLoop cfg d (b :: l) i = loopNext cfg l (i + 1) (dstep cfg d b (i + 1)) := by
  simp only [consumeLoop]
  rcases dstep cfg d b (i + 1) with _ | _ | _ | _ <;> rfl

/-- Noise (R149): bytes before a start token are counted and change nothing. -/
theorem consumeLoop_noise {cfg : Cfg} {d : Decoder} {g : List Byte} (h : d.buf = [])
    (hg : cfg.start ∉ g) (l : List Byte) (i : Nat) :
    consumeLoop cfg d (g ++ l) i = consumeLoop cfg d l (i + g.length) := by
  induction g generalizing i with
  | nil => simp
  | cons b g ih =>
    have hb : b ≠ cfg.start := fun he => hg (by simp [he])
    rw [List.cons_append, consumeLoop_cons, dstep_seek h]
    simp only [hb, if_false, loopNext_more]
    rw [ih (fun hm => hg (List.mem_cons_of_mem _ hm))]
    congr 1
    simp; omega

/-! ### The ports -/

/-- CONSUME on an instance that still takes bytes (R146): the loop's outcome, written to the unit. -/
theorem consumeAt_eq {s : State} {u : Nat} {d : Decoder} (h : s.unit u = some d)
    (hc : d.complete = false) (chunk : List Byte) :
    consumeAt s u chunk =
      match consumeLoop s.cfg d chunk 0 with
      | none => .fault .readOutsideBuffer
      | some (.returned d' n) => .next ((s.setUnit u d').returns (.count n))
      | some (.raised d' e) => .next ((s.setUnit u d').raises e) := by
  simp only [consumeAt, onUnit, h, hc]
  rcases consumeLoop s.cfg d chunk 0 with _ | _ | _ <;> rfl

/-- Everything CONSUME can do when it answers a next state: refuse on no instance, refuse on a complete
one, or write its unit and give the count or the error. -/
theorem consumeAt_next {s t : State} {u : Nat} {chunk : List Byte}
    (h : consumeAt s u chunk = .next t) :
    (s.unit u = none ∧ t = s.refuses .noInstance) ∨
    ∃ d, s.unit u = some d ∧
      ((d.complete = true ∧ t = s.refuses .spent) ∨
       (d.complete = false ∧
        ((∃ d' n, consumeLoop s.cfg d chunk 0 = some (.returned d' n) ∧
            t = (s.setUnit u d').returns (.count n)) ∨
         (∃ d' e, consumeLoop s.cfg d chunk 0 = some (.raised d' e) ∧
            t = (s.setUnit u d').raises e)))) := by
  cases hu : s.unit u with
  | none =>
    simp only [consumeAt, onUnit, hu, Host.Outcome.next.injEq] at h
    exact .inl ⟨rfl, h.symm⟩
  | some d =>
    refine .inr ⟨d, rfl, ?_⟩
    cases hc : d.complete with
    | true =>
      simp only [consumeAt, onUnit, hu, hc, if_true, Host.Outcome.next.injEq] at h
      exact .inl ⟨rfl, h.symm⟩
    | false =>
      refine .inr ⟨rfl, ?_⟩
      rw [consumeAt_eq hu hc] at h
      split at h
      · cases h
      · rename_i d' n hl
        exact .inl ⟨d', n, hl, by simpa using h.symm⟩
      · rename_i d' e hl
        exact .inr ⟨d', e, hl, by simpa using h.symm⟩

/-- A query that never fails (R178, R179, R185) changes nothing but the reply. -/
theorem queryAt_eq {s : State} {u : Nat} {d : Decoder} (h : s.unit u = some d) (v : Decoder → Value) :
    queryAt s u v = .next (s.returns (v d)) := by
  simp [queryAt, onUnit, h]

/-- The contract of the field accessors (R183). -/
theorem fieldAt_eq {s : State} {u : Nat} {d : Decoder} (h : s.unit u = some d) (v : Decoder → Value) :
    fieldAt s u v =
      if d.complete then .next (s.returns (v d)) else .next (s.refuses .notComplete) := by
  simp [fieldAt, onUnit, h]

/-- A decoder port of a unit never given NEW (R231). -/
theorem onUnit_none {s : State} {u : Nat} (h : s.unit u = none)
    (k : Decoder → Host.Outcome State Fault Refusal) :
    onUnit s u k = .next (s.refuses .noInstance) := by
  simp [onUnit, h]

end Sys2Proof.Machine
end

