-- ==== Sys2Proof/Laws/Stuffing.lean ====
section
/-! SUPPORT. Stuffing (R101) and what a decoder unit does with a stuffed frame: the buffer grows by the
de-stuffed bytes, and a whole frame ends in the decode step on exactly those bytes. -/

namespace Sys2Proof.Machine

theorem isReserved_eq_true {cfg : Cfg} {b : Byte} :
    isReserved cfg b = true ↔ b = cfg.start ∨ b = cfg.esc := by
  simp [isReserved]

theorem stuff_append (cfg : Cfg) (s t : List Byte) : stuff cfg (s ++ t) = stuff cfg s ++ stuff cfg t := by
  induction s with
  | nil => rfl
  | cons b s ih => simp only [List.cons_append, stuff, ih]; split <;> simp

/-- How many wire bytes one byte costs (R103). -/
def wireCost (cfg : Cfg) (b : Byte) : Nat :=
  if isReserved cfg b then 2 else 1

/-- One stuffed byte at a unit inside a frame is one append (R104, R107), at the cursor after it. -/
theorem consumeLoop_stuff_cons {cfg : Cfg} {d : Decoder} (hb : d.buf ≠ []) (he : d.esc = false)
    (b : Byte) (s l : List Byte) (i : Nat) :
    consumeLoop cfg d (stuff cfg (b :: s) ++ l) i =
      loopNext cfg (stuff cfg s ++ l) (i + wireCost cfg b)
        (afterAppend cfg (d.append b) (i + wireCost cfg b)) := by
  have hd : { d with esc := false } = d := by rw [← he]
  by_cases hr : isReserved cfg b = true
  · simp only [stuff, hr, if_true, List.cons_append, wireCost]
    rw [consumeLoop_cons, dstep_esc hb he, loopNext_more, consumeLoop_cons,
      dstep_append (by exact hb) (.inl rfl)]
    simp only [hd, Nat.add_assoc]
  · have hne : b ≠ cfg.esc := fun h => hr (isReserved_eq_true.mpr (.inr h))
    simp only [stuff, hr, Bool.false_eq_true, if_false, List.cons_append, wireCost]
    rw [consumeLoop_cons, dstep_append hb (.inr hne)]
    simp only [hd]

theorem stuff_cons_length (cfg : Cfg) (b : Byte) (s : List Byte) :
    (stuff cfg (b :: s)).length = wireCost cfg b + (stuff cfg s).length := by
  simp only [stuff, wireCost]
  split <;> simp <;> omega

/-- Stuffed bytes that stay below the target only grow the buffer, whatever their values. -/
theorem consumeLoop_stuff_more {cfg : Cfg} {t : Nat} (s l : List Byte) (d : Decoder) (i : Nat)
    (he : d.esc = false) (ht : d.target = some t) (h4 : 4 ≤ d.buf.length)
    (hn : d.buf.length + s.length < t + 2) :
    consumeLoop cfg d (stuff cfg s ++ l) i =
      consumeLoop cfg { d with buf := d.buf ++ s } l (i + (stuff cfg s).length) := by
  induction s generalizing d i with
  | nil => simp [stuff]
  | cons b s ih =>
    have hne : d.buf ≠ [] := by intro h; simp [h] at h4
    simp only [List.length_cons] at hn
    rw [consumeLoop_stuff_cons hne he]
    rw [afterAppend_more _ (by simp; omega) (by
      intro t' ht'
      simp only [Decoder.append_target, ht, Option.some.injEq] at ht'
      simp; omega)]
    rw [loopNext_more, ih (d.append b) _ he ht (by simp; omega) (by simp; omega), stuff_cons_length]
    simp only [Decoder.append, List.append_assoc, List.cons_append, List.nil_append]
    congr 1
    omega

/-- The unit that holds a whole frame `fr` (its pre-stuffing form), about to run the decode step. -/
def Decoder.holding (cfg : Cfg) (ft : FrameType) (fr : List Byte) : Decoder :=
  { Decoder.fresh ft with
    buf := cfg.start :: fr
    target := some (fr.length - 1)
    complete := true }

/-- A whole frame at a fresh unit: the wire form of `fr`, whose header declares its own length, ends in
the decode step on the buffer `[START] ++ fr`, and what follows in the chunk is left alone (R156). -/
theorem consumeLoop_wireForm {cfg : Cfg} {ft : FrameType} {fr : List Byte} {c : Byte} {L : Nat}
    (hr : readHeader cfg (cfg.start :: fr) = some (c, L)) (hL : ftValue cfg ft ≤ L)
    (hn : fr.length = L - ftValue cfg ft + lengthWidth cfg c + 3) (l : List Byte) (i : Nat) :
    consumeLoop cfg (Decoder.fresh ft) (wireForm cfg fr ++ l) i =
      loopNext cfg l (i + (wireForm cfg fr).length)
        (decodeStep cfg (Decoder.holding cfg ft fr) (i + (wireForm cfg fr).length)) := by
  have hw := lengthWidth_cases cfg c
  match fr, hn with
  | [], hn => simp at hn
  | [_], hn => simp at hn
  | [_, _], hn => simp at hn
  | [_, _, _], hn => simp at hn; omega
  | b1 :: b2 :: b3 :: b4 :: rest, hn =>
    have hr4 : readHeader cfg [cfg.start, b1, b2, b3] = some (c, L) := by
      rw [← readHeader_append cfg (t := b4 :: rest) (by simp)]
      simpa using hr
    obtain ⟨m, z, hmz⟩ : ∃ m z, b4 :: rest = m ++ [z] :=
      ⟨_, _, (List.dropLast_append_getLast (by simp : b4 :: rest ≠ [])).symm⟩
    have hlen : (b4 :: rest).length = m.length + 1 := by rw [hmz]; simp
    simp only [List.length_cons] at hn hlen
    have hi : i + 1 + wireCost cfg b1 + wireCost cfg b2 + wireCost cfg b3 + (stuff cfg m).length +
        wireCost cfg z = i + (wireForm cfg (b1 :: b2 :: b3 :: b4 :: rest)).length := by
      rw [hmz, wireForm, List.length_cons, stuff_cons_length, stuff_cons_length, stuff_cons_length,
        stuff_append, List.length_append, stuff_cons_length]
      simp [stuff]
      omega
    have hcong : ∀ (x y : Nat) (d d' : Decoder), x = y → d = d' →
        loopNext cfg l x (decodeStep cfg d x) = loopNext cfg l y (decodeStep cfg d' y) := by
      rintro _ _ _ _ rfl rfl; rfl
    -- the start token and the first two bytes
    rw [wireForm, List.cons_append, consumeLoop_cons, dstep_seek (by rfl), loopNext_more, if_pos rfl,
      consumeLoop_stuff_cons (by simp) (by rfl), afterAppend_more _ (by simp) (by simp), loopNext_more,
      consumeLoop_stuff_cons (by simp) (by rfl), afterAppend_more _ (by simp) (by simp), loopNext_more]
    -- the fourth buffer byte runs the header step
    rw [consumeLoop_stuff_cons (by simp) (by rfl),
      afterAppend_header (c := c) (L := L) _ (by simp) (by simpa using hr4)]
    simp only [Decoder.append_ft, Decoder.fresh_ft, show ¬ L < ftValue cfg ft by omega, if_false,
      loopNext_more]
    -- the bytes below the target, then the last byte
    rw [hmz, stuff_append, List.append_assoc,
      consumeLoop_stuff_more (t := L - ftValue cfg ft + lengthWidth cfg c + 2) m _ _ _ (by rfl) (by rfl)
        (by simp) (by simp; omega),
      consumeLoop_stuff_cons (by simp) (by rfl),
      afterAppend_complete (t := L - ftValue cfg ft + lengthWidth cfg c + 2) _ (by simp) (by rfl)
        (by simp; omega)]
    refine hcong _ _ _ _ ?_ ?_
    · rw [hi, hmz, wireForm]
    · simp [Decoder.holding, Decoder.append, Decoder.fresh]
      omega

end Sys2Proof.Machine
end

