-- ==== Sys2Proof/Laws/Encoder.lean ====
section
/-! SUPPORT. One lemma for each outcome of ENC (42_encoder.md), and what a successful ENC tells. -/

namespace Sys2Proof.Machine

theorem frameBody_length (ft : FrameType) (addr id : Word) (payload : List Byte) :
    (frameBody ft addr id payload).length = addrSize ft + 4 + payload.length := by
  cases ft
  · simp [frameBody, addrField, addrSize]
  · simp [frameBody, addrField, addrSize]; omega

/-- The declared length `L` of the operands of an ENC (R130). -/
def encLength (cfg : Cfg) (cmd : Byte) (a : EncOperands) : Nat :=
  declaredLength cfg a.ft (frameBody a.ft (effAddr a) a.id (effPayload cfg cmd a))

theorem encLength_eq (cfg : Cfg) (cmd : Byte) (a : EncOperands) :
    encLength cfg cmd a = ftValue cfg a.ft + addrSize a.ft + 4 + (effPayload cfg cmd a).length := by
  rw [encLength, declaredLength, frameBody_length]; omega

/-- The pre-stuffing buffer of the operands of an ENC (R131). -/
def encBuffer (cfg : Cfg) (cmd : Byte) (a : EncOperands) : List Byte :=
  preBuffer cfg cmd (encLength cfg cmd a) (frameBody a.ft (effAddr a) a.id (effPayload cfg cmd a))

/-- Everything ENC can answer (R126, R130, R133). -/
theorem encodeFrame_eq (cfg : Cfg) (cmd : Byte) (a : EncOperands) :
    encodeFrame cfg cmd a =
      if isKnown cfg cmd then
        if 256 ^ lengthWidth cfg cmd ≤ encLength cfg cmd a then
          .error (.encLengthOverflow (encLength cfg cmd a) (lengthWidth cfg cmd))
        else .ok (wireForm cfg (withChecksum cfg (encBuffer cfg cmd a)))
      else .error (.encBadCommand cmd) := rfl

/-- What a result of ENC tells: the command is known, the length fits, and which bytes it is. -/
theorem encodeFrame_ok {cfg : Cfg} {cmd : Byte} {a : EncOperands} {w : List Byte} :
    encodeFrame cfg cmd a = .ok w ↔
      isKnown cfg cmd = true ∧ encLength cfg cmd a < 256 ^ lengthWidth cfg cmd ∧
        w = wireForm cfg (withChecksum cfg (encBuffer cfg cmd a)) := by
  rw [encodeFrame_eq]
  by_cases hk : isKnown cfg cmd = true
  · by_cases hL : 256 ^ lengthWidth cfg cmd ≤ encLength cfg cmd a
    · rw [if_pos hk, if_pos hL]
      exact ⟨fun h => by simp at h, fun h => absurd h.2.1 (by omega)⟩
    · rw [if_pos hk, if_neg hL, Except.ok.injEq]
      exact ⟨fun h => ⟨hk, by omega, h.symm⟩, fun h => h.2.2.symm⟩
  · rw [if_neg hk]
    exact ⟨fun h => by simp at h, fun h => absurd h.1 hk⟩

/-- Everything the encoder port can do: it answers, and changes the reply alone. -/
theorem encAt_eq (s : State) (cmd : Byte) (a : EncOperands) :
    encAt s cmd a = .next (match encodeFrame s.cfg cmd a with
      | .ok w => s.returns (.wire w)
      | .error e => s.refuses e) := by
  unfold encAt
  cases encodeFrame s.cfg cmd a <;> rfl

/-- An ENC that returned bytes ran to its end. -/
theorem encAt_returned {s t : State} {cmd : Byte} {a : EncOperands} {w : List Byte}
    (h : encAt s cmd a = .next t) (hw : t.reply = .returned (.wire w)) :
    encodeFrame s.cfg cmd a = .ok w ∧ t = s.returns (.wire w) := by
  rw [encAt_eq, Host.Outcome.next.injEq] at h
  subst h
  split at hw
  · rename_i w' he
    simp only [State.returns_reply, Reply.returned.injEq, Value.wire.injEq] at hw
    subst hw
    exact ⟨he, rfl⟩
  · simp at hw

end Sys2Proof.Machine
end

