-- ==== Sys2Proof/Laws/Frames.lean ====
section
/-! SUPPORT. A whole frame at a fresh decoder unit: a frame is a command byte, its length field, the bytes
it declares and a checksum field; CONSUME of its wire form ends in the decode step on exactly these. -/

namespace Sys2Proof.Machine

/-- The header of a frame reads back (R152). -/
theorem readHeader_frame {cfg : Cfg} {b0 c : Byte} {L : Nat} (h : L < 256 ^ lengthWidth cfg c)
    (rest : List Byte) :
    readHeader cfg (b0 :: c :: (be (lengthWidth cfg c) L ++ rest)) = some (c, L) := by
  refine readHeader_eq_some.mpr ⟨by simp; omega, rfl, ?_⟩
  simp only [List.drop_succ_cons, List.drop_zero]
  rw [List.take_append_of_le_length (by simp), List.take_of_length_le (by simp), ube_be h]

/-- The checksum field of a frame reads back (R171). -/
theorem receivedChecksum_frame (pre : List Byte) (rx : Half) (b0 : Byte) :
    receivedChecksum (b0 :: (pre ++ be 2 rx.toNat)) = rx := by
  have h : (b0 :: (pre ++ be 2 rx.toNat)).length - 2 = (b0 :: pre).length := by simp
  rw [receivedChecksum, h, ← List.cons_append, List.drop_left]
  simp

/-- The covered bytes of a frame are its pre-stuffing buffer (R117). -/
theorem coveredBytes_frame (pre : List Byte) (rx : Half) (b0 : Byte) :
    coveredBytes (b0 :: (pre ++ be 2 rx.toNat)) = pre := by
  simp [coveredBytes]

/-- A frame of command byte `c` that declares the bytes `rest` of its body, at a fresh unit: CONSUME of its
wire form and of what follows ends at the frame's last byte, in the first check that fails (R210 (c)). -/
theorem consumeLoop_frame {cfg : Cfg} {ft : FrameType} {c : Byte} {rest : List Byte} {rx : Half}
    (hL : ftValue cfg ft + rest.length < 256 ^ lengthWidth cfg c) (l : List Byte) (i : Nat) :
    let L := ftValue cfg ft + rest.length
    let pre := c :: (be (lengthWidth cfg c) L ++ rest)
    let fr := pre ++ be 2 rx.toNat
    let n := i + (wireForm cfg fr).length
    let d := Decoder.holding cfg ft fr
    consumeLoop cfg (Decoder.fresh ft) (wireForm cfg fr ++ l) i =
      loopNext cfg l n (some (
        if rx = checksum cfg.ck pre then
          if isKnown cfg c then
            if rest.length < addrSize ft + 4 then
              takeError { d with crcOk := true } .badLength (.badLength L n)
            else .doneOk (committed cfg d c)
          else takeError { d with crcOk := true } .unknownCommand (.unknownCommand c n)
        else takeError d .checksumMismatch (.checksumMismatch rx (checksum cfg.ck pre) n))) := by
  intro L pre fr n d
  have hr : readHeader cfg (cfg.start :: fr) = some (c, L) := by
    simpa [fr, pre] using readHeader_frame hL (rest ++ be 2 rx.toNat)
  have hlen : fr.length = L - ftValue cfg ft + lengthWidth cfg c + 3 := by
    simp [fr, pre, L]; omega
  rw [consumeLoop_wireForm hr (by omega) hlen]
  congr 1
  rw [decodeStep_eq (c := c) (L := L) _ hr (by simp [Decoder.holding, L])
    (by simp only [Decoder.holding, List.length_cons, hlen, Decoder.fresh_ft])]
  have h1 : receivedChecksum (Decoder.holding cfg ft fr).buf = rx := receivedChecksum_frame pre rx _
  have h2 : coveredBytes (Decoder.holding cfg ft fr).buf = pre := coveredBytes_frame pre rx _
  have h3 : (L < ftValue cfg (Decoder.holding cfg ft fr).ft +
      addrSize (Decoder.holding cfg ft fr).ft + 4) = (rest.length < addrSize ft + 4) := by
    simp only [Decoder.holding, Decoder.fresh_ft, L]
    exact propext (by omega)
  simp only [h1, h2, h3]
  rfl

end Sys2Proof.Machine
end

