-- ==== Sys2Proof/Laws/Invariant.lean ====
section
/-! SUPPORT. The per-byte step keeps the invariants of a decoder unit (R35) and never reads outside the
buffer (R54). -/

namespace Sys2Proof.Machine

/-- The unit a byte outcome leaves. -/
def ByteOutcome.dec : ByteOutcome → Decoder
  | .more d => d
  | .doneOk d => d
  | .doneErr d _ => d

/-- The unit goes on taking bytes. -/
def ByteOutcome.isMore : ByteOutcome → Bool
  | .more _ => true
  | .doneOk _ => false
  | .doneErr _ _ => false

@[simp] theorem ByteOutcome.dec_more (d : Decoder) : (ByteOutcome.more d).dec = d := rfl
@[simp] theorem ByteOutcome.dec_doneOk (d : Decoder) : (ByteOutcome.doneOk d).dec = d := rfl
@[simp] theorem ByteOutcome.dec_doneErr (d : Decoder) (e : CodecError) :
    (ByteOutcome.doneErr d e).dec = d := rfl
@[simp] theorem ByteOutcome.isMore_more (d : Decoder) : (ByteOutcome.more d).isMore = true := rfl
@[simp] theorem ByteOutcome.isMore_doneOk (d : Decoder) : (ByteOutcome.doneOk d).isMore = false := rfl
@[simp] theorem ByteOutcome.isMore_doneErr (d : Decoder) (e : CodecError) :
    (ByteOutcome.doneErr d e).isMore = false := rfl
@[simp] theorem takeError_dec (d : Decoder) (f : FaultReg) (e : CodecError) :
    (takeError d f e).dec = { d with complete := true, fault := f } := rfl
@[simp] theorem takeError_isMore (d : Decoder) (f : FaultReg) (e : CodecError) :
    (takeError d f e).isMore = false := rfl

/-- The status of a unit that is not complete is one of the three open ones (R34). -/
theorem status_open {d : Decoder} (hc : d.complete = false) :
    d.status = some .seek ∨ d.status = some .header ∨ d.status = some .body := by
  unfold Decoder.status
  by_cases h1 : d.buf = [] <;> by_cases h2 : d.target = none <;> simp [hc, h1, h2]

/-- The invariants of a unit that is not complete, from the few facts they come down to. -/
theorem Inv_of_open {cfg : Cfg} {d : Decoder} (hc : d.complete = false) (hcrc : d.crcOk = false)
    (hf : d.fault = .none) (hz : d.cmd = .none ∧ d.addr = 0 ∧ d.id = 0 ∧ d.data = [])
    (h1 : d.buf = [] → d.esc = false ∧ d.target = none)
    (h2 : d.buf ≠ [] → d.buf.head? = some cfg.start)
    (h3 : ∀ t, d.target = some t → d.targetFits cfg t ∧ d.buf.length < t + 2)
    (h4 : d.target = none → d.buf.length ≤ 3) : d.Inv cfg where
  empty h := ⟨(h1 h).1, (h1 h).2, hc⟩
  first := h2
  known t h := (h3 t h).1
  waiting t _ h := (h3 t h).2
  noEsc h := by simp [hc] at h
  crc h := by simp [hcrc] at h
  full t h := by simp [hc] at h
  headerFault h := by simp [hc] at h
  notValid _ := hz
  valid h := by rcases status_open hc with h' | h' | h' <;> simp [h'] at h
  short _ := h4
  noFault _ := hf
  mismatch := by simp [hf, hc]
  matched h := by simp [hf] at h
  hasStatus := by rcases status_open hc with h' | h' | h' <;> simp [h']

/-- What the invariants say of the flags and fields of a unit that is not complete. -/
theorem open_facts {cfg : Cfg} {d : Decoder} (h : d.Inv cfg) (hc : d.complete = false) :
    d.crcOk = false ∧ d.fault = .none ∧ (d.cmd = .none ∧ d.addr = 0 ∧ d.id = 0 ∧ d.data = []) := by
  refine ⟨?_, h.noFault hc, h.notValid ?_⟩
  · by_contra hh
    have := h.crc (by simpa using hh)
    simp [hc] at this
  · rcases status_open hc with h' | h' | h' <;> simp [h']

/-- The invariants of a unit that went terminal at its target, from the facts they come down to. -/
theorem Inv_of_full {cfg : Cfg} {d : Decoder} {t : Nat} (hc : d.complete = true) (he : d.esc = false)
    (hne : d.buf ≠ []) (hfirst : d.buf.head? = some cfg.start) (ht : d.target = some t)
    (hfit : d.targetFits cfg t) (hfull : d.buf.length = t + 2)
    (hok : d.fault = .none → d.crcOk = true) (hmm : d.fault = .checksumMismatch ↔ d.crcOk = false)
    (huc : d.fault = .unknownCommand → d.crcOk = true)
    (hz : d.status ≠ some .valid → d.cmd = .none ∧ d.addr = 0 ∧ d.id = 0 ∧ d.data = [])
    (hv : d.status = some .valid → ∃ c, d.buf[1]? = some c ∧ d.cmd = .code c ∧ isKnown cfg c = true ∧
      d.fieldsDecoded (lengthWidth cfg c) (addrSize d.ft)) : d.Inv cfg where
  empty h := absurd h hne
  first _ := hfirst
  known t' ht' := by rw [ht] at ht'; cases ht'; exact hfit
  waiting t h := by simp [hc] at h
  noEsc _ := he
  crc _ := hc
  full t' _ ht' := by rw [ht] at ht'; cases ht'; exact hfull
  headerFault _ h := by simp [ht] at h
  notValid := hz
  valid := hv
  short h := by simp [hc] at h
  noFault h := by simp [hc] at h
  mismatch := by rw [hmm]; simp [hc, ht]
  matched := huc
  hasStatus := by
    unfold Decoder.status
    rw [if_pos hc]
    split <;> simp
    rename_i h
    exact hok h

/-- A big-endian read of at most 4 bytes fits a 32-bit register. -/
theorem ube_take_four_lt (s : List Byte) : ube (s.take 4) < 2 ^ 32 :=
  lt_of_lt_of_le (ube_lt _)
    (le_trans (Nat.pow_le_pow_right (by norm_num) (by simp : (s.take 4).length ≤ 4)) (by norm_num))

/-- The fields the commit writes are the ones rule R176 gives. -/
theorem committed_fields (cfg : Cfg) (d : Decoder) (c : Byte)
    (h : 2 + lengthWidth cfg c + addrSize d.ft + 4 ≤ d.buf.length - 2) :
    (committed cfg d c).fieldsDecoded (lengthWidth cfg c) (addrSize d.ft) := by
  refine ⟨?_, ?_, rfl, h⟩
  · simp only [committed]
    split
    · rename_i hft
      simp [addrSize, hft]
    · rename_i hft
      simp only [addrSize, hft, BitVec.toNat_ofNat]
      exact Nat.mod_eq_of_lt (ube_take_four_lt _)
  · simp only [committed, BitVec.toNat_ofNat]
    exact Nat.mod_eq_of_lt (ube_take_four_lt _)

/-- The header step keeps the invariants: `d` is the unit right after its fourth byte was appended. -/
theorem afterAppend_header_inv {cfg : Cfg} {d : Decoder} (i : Nat) (hc : d.complete = false)
    (hcrc : d.crcOk = false) (hf : d.fault = .none)
    (hz : d.cmd = .none ∧ d.addr = 0 ∧ d.id = 0 ∧ d.data = []) (he : d.esc = false)
    (hfirst : d.buf.head? = some cfg.start) (ht : d.target = none) (h4 : d.buf.length = 4) :
    ∃ o, afterAppend cfg d i = some o ∧ o.dec.Inv cfg ∧ o.isMore = !o.dec.complete := by
  have hne : d.buf ≠ [] := by intro h; simp [h] at h4
  obtain ⟨c, L, hr⟩ := readHeader_of_four cfg (buf := d.buf) (by omega)
  refine ⟨_, afterAppend_header i h4 hr, ?_, ?_⟩
  · by_cases hl : L < ftValue cfg d.ft
    · simp only [hl, if_true, takeError_dec]
      exact {
        empty := fun h => absurd h hne
        first := fun _ => hfirst
        known := fun t h => by simp [ht] at h
        waiting := fun t h => by simp at h
        noEsc := fun _ => he
        crc := fun _ => rfl
        full := fun t _ h => by simp [ht] at h
        headerFault := fun _ _ => ⟨rfl, h4⟩
        notValid := fun _ => hz
        valid := fun h => by simp [Decoder.status] at h
        short := fun h => by simp at h
        noFault := fun h => by simp at h
        mismatch := by simp [ht]
        matched := fun h => by simp at h
        hasStatus := by simp [Decoder.status] }
    · simp only [hl, if_false, ByteOutcome.dec_more]
      refine Inv_of_open hc hcrc hf hz (fun h => absurd h hne) (fun _ => hfirst) ?_ (by simp)
      intro t ht'
      simp only [Option.some.injEq] at ht'
      subst ht'
      refine ⟨⟨by simp [h4], ?_⟩, ?_⟩
      · simp only [hr]
        exact ⟨by omega, trivial⟩
      · simp only [h4]
        rcases lengthWidth_cases cfg c with hw | hw <;> omega
  · split <;> simp [hc]

/-- Completion keeps the invariants: `d` is the unit right after the last byte of its frame. -/
theorem afterAppend_full_inv {cfg : Cfg} {d : Decoder} {t : Nat} (i : Nat) (hcrc : d.crcOk = false)
    (hf : d.fault = .none) (hz : d.cmd = .none ∧ d.addr = 0 ∧ d.id = 0 ∧ d.data = [])
    (he : d.esc = false) (hfirst : d.buf.head? = some cfg.start) (ht : d.target = some t)
    (h4 : d.buf.length ≠ 4) (hfit : d.targetFits cfg t) (hfull : d.buf.length = t + 2) :
    ∃ o, afterAppend cfg d i = some o ∧ o.dec.Inv cfg ∧ o.isMore = !o.dec.complete := by
  have hne : d.buf ≠ [] := by intro h; simp [h] at hfirst
  obtain ⟨c, L, hr⟩ := readHeader_of_four cfg hfit.1
  have hfit' := hfit.2
  simp only [hr] at hfit'
  obtain ⟨hL, hteq⟩ := hfit'
  rw [afterAppend_complete i h4 ht hfull]
  refine ⟨_, decodeStep_eq (c := c) (L := L) i hr hL (by simp only; omega), ?_, ?_⟩
  · by_cases hck : receivedChecksum d.buf = checksum cfg.ck (coveredBytes d.buf)
    · by_cases hkn : isKnown cfg c = true
      · by_cases hs : L < ftValue cfg d.ft + addrSize d.ft + 4
        · simp only [hck, hkn, hs, if_true, takeError_dec]
          exact Inv_of_full (t := t) rfl he hne hfirst ht hfit hfull (by simp) (by simp) (by simp)
            (fun _ => hz) (by simp [Decoder.status])
        · simp only [hck, hkn, hs, if_true, if_false, ByteOutcome.dec_doneOk]
          refine Inv_of_full (t := t) rfl he hne hfirst ht hfit hfull (fun _ => rfl)
            (by simp [committed, hf]) (fun _ => rfl) (by simp [Decoder.status, committed, hf])
            (fun _ => ?_)
          obtain ⟨_, hcb, _⟩ := readHeader_eq_some.mp hr
          refine ⟨c, hcb, rfl, hkn, ?_⟩
          exact committed_fields cfg { d with complete := true } c (by simp only; omega)
      · simp only [hck, hkn, if_true, if_false, Bool.false_eq_true, takeError_dec]
        exact Inv_of_full (t := t) rfl he hne hfirst ht hfit hfull (by simp) (by simp) (by simp)
          (fun _ => hz) (by simp [Decoder.status])
    · simp only [hck, if_false, takeError_dec]
      exact Inv_of_full (t := t) rfl he hne hfirst ht hfit hfull (by simp) (by simp [hcrc]) (by simp)
        (fun _ => hz) (by simp [Decoder.status])
  · split
    · split
      · split <;> simp [committed]
      · simp
    · simp

/-- The per-byte step on a unit that still takes bytes: it never reads outside the buffer (R54), it keeps
the invariants (R35), and it goes on exactly when the unit is not complete (R148). -/
theorem dstep_inv {cfg : Cfg} {d : Decoder} (h : d.Inv cfg) (hc : d.complete = false) (b : Byte)
    (i : Nat) :
    ∃ o, dstep cfg d b i = some o ∧ o.dec.Inv cfg ∧ o.isMore = !o.dec.complete := by
  obtain ⟨hcrc, hf, hz⟩ := open_facts h hc
  by_cases hb : d.buf = []
  · refine ⟨_, dstep_seek hb b i, ?_, by split <;> simp [hc]⟩
    obtain ⟨he, ht, _⟩ := h.empty hb
    simp only [ByteOutcome.dec_more]
    split
    · exact Inv_of_open (by simp [hc]) (by simp [hcrc]) (by simp [hf]) (by simpa using hz)
        (by simp [hb]) (by simp [hb]) (by simp [ht]) (by simp [hb])
    · exact h
  · by_cases he : d.esc = false ∧ b = cfg.esc
    · obtain ⟨he, rfl⟩ := he
      refine ⟨_, dstep_esc hb he i, ?_, by simp [hc]⟩
      exact Inv_of_open hc hcrc hf hz (fun h => absurd h hb) h.first
        (fun t ht => ⟨h.known t ht, h.waiting t hc ht⟩) (h.short hc)
    · have he' : d.esc = true ∨ b ≠ cfg.esc := by
        by_cases h1 : d.esc = true
        · exact .inl h1
        · exact .inr fun h2 => he ⟨by simpa using h1, h2⟩
      rw [dstep_append hb he']
      have hfirst : (Decoder.append { d with esc := false } b).buf.head? = some cfg.start := by
        simp [List.head?_append, h.first hb]
      have hlen : (Decoder.append { d with esc := false } b).buf.length = d.buf.length + 1 := by simp
      rcases Option.eq_none_or_eq_some d.target with ht | ⟨t, ht⟩
      · have hshort := h.short hc ht
        by_cases h4 : d.buf.length = 3
        · exact afterAppend_header_inv i hc hcrc hf hz rfl hfirst ht (by omega)
        · refine ⟨_, afterAppend_more i (by omega) (by simp [ht]), ?_, by simp [hc]⟩
          exact Inv_of_open hc hcrc hf hz (by simp) (fun _ => hfirst)
            (by simp [ht]) (fun _ => by simp; omega)
      · obtain ⟨hk4, hk⟩ := h.known t ht
        have hw := h.waiting t hc ht
        have hfit : (Decoder.append { d with esc := false } b).targetFits cfg t := by
          refine ⟨by omega, ?_⟩
          rw [Decoder.append_buf, readHeader_append cfg hk4]
          exact hk
        by_cases hfull : d.buf.length + 1 = t + 2
        · exact afterAppend_full_inv i hcrc hf hz rfl hfirst ht (by omega) hfit (by omega)
        · refine ⟨_, afterAppend_more i (by omega) ?_, ?_, by simp [hc]⟩
          · intro t' ht'
            simp only [Decoder.append_target, ht, Option.some.injEq] at ht'
            omega
          · refine Inv_of_open hc hcrc hf hz (by simp) (fun _ => hfirst) ?_ (by simp [ht])
            intro t' ht'
            simp only [ByteOutcome.dec_more, Decoder.append_target, ht, Option.some.injEq] at ht'
            subst ht'
            exact ⟨hfit, by simp; omega⟩

/-! ### The loop and the state -/

/-- A fresh unit is legal (R39). -/
theorem fresh_inv (cfg : Cfg) (ft : FrameType) : (Decoder.fresh ft).Inv cfg :=
  Inv_of_open rfl rfl rfl ⟨rfl, rfl, rfl, rfl⟩ (fun _ => ⟨rfl, rfl⟩) (fun h => absurd rfl h)
    (fun _ h => by simp at h) (fun _ => by simp)

/-- The unit a finished CONSUME loop leaves. -/
def ConsumeOutcome.dec : ConsumeOutcome → Decoder
  | .returned d _ => d
  | .raised d _ => d

/-- A unit whose step goes on is not complete: `isMore` and `complete` exclude each other. -/
theorem complete_of_more {o : ByteOutcome} {d : Decoder} (h : o.isMore = !o.dec.complete)
    (ho : o = .more d) : d.complete = false := by
  subst ho
  simpa using h

/-- The loop of CONSUME on a legal unit answers and leaves a legal unit (R35, R54, R161). -/
theorem consumeLoop_inv {cfg : Cfg} (l : List Byte) {d : Decoder} (h : d.Inv cfg)
    (hc : d.complete = false) (i : Nat) :
    ∃ o, consumeLoop cfg d l i = some o ∧ o.dec.Inv cfg := by
  induction l generalizing d i with
  | nil => exact ⟨_, rfl, h⟩
  | cons b l ih =>
    obtain ⟨o, ho, hi, hm⟩ := dstep_inv h hc b (i + 1)
    rw [consumeLoop_cons, ho]
    cases o with
    | more d' => exact ih hi (complete_of_more hm rfl) (i + 1)
    | doneOk d' => exact ⟨_, rfl, hi⟩
    | doneErr d' e => exact ⟨_, rfl, hi⟩

/-- A state stays legal when one unit is written with a legal unit. -/
theorem State.Inv_setUnit {s : State} {u : Nat} {d : Decoder} (hs : s.Inv) (hd : d.Inv s.cfg) :
    (s.setUnit u d).Inv where
  sorted := unitsWf_insertUnit hs.sorted
  units v e hv := by
    by_cases h : v = u
    · subst h
      rw [State.unit_setUnit_self, Option.some.injEq] at hv
      exact hv ▸ hd
    · rw [State.unit_setUnit_ne s h] at hv
      exact hs.units v e hv

end Sys2Proof.Machine
end

