-- ==== Sys2Proof/Laws/PerInstr.lean ====
section
/-! SUPPORT. Statements made per instruction about the instruction as syntax. `EncodedWord`: an instruction
that has a byte word is encoded as a word with at least one byte, and a word that begins with a token is
that token alone, so that the decoder refuses no encoded word. -/

namespace Sys2Proof.Laws.EncodedWord

open Sys2Proof Sys2Proof.Machine

/-- The encoded word of `i` has a byte, and it is one byte when that byte is a token. -/
def Statement (i : Instr) : Prop :=
  ∀ cfg : Cfg, i.hasWord cfg = true →
    ∃ u b rest, encode cfg i = some (u, b :: rest) ∧ (isReserved cfg b = true → rest = [])

/-- A frame's word begins with its command byte, which is no token. -/
theorem of_command {cfg : Cfg} {i : Instr} {c : Byte} {f : CommandForm}
    (_ : i.commandByte cfg = some c)
    (he : encode cfg i = match f with | .send _ => none | .recv u body => some (u, c :: body))
    (hw : (match f with | .send _ => false | .recv _ _ => !isReserved cfg c) = true) :
    ∃ u b rest, encode cfg i = some (u, b :: rest) ∧ (isReserved cfg b = true → rest = []) := by
  cases f with
  | send a => simp at hw
  | recv u body => exact ⟨u, c, body, he, fun h => by simp [h] at hw⟩

theorem read (f : CommandForm) : Statement (.read f) := by
  intro cfg h
  refine of_command (f := f) rfl ?_ ?_
  · cases f <;> rfl
  · cases f <;> exact h

theorem write (f : CommandForm) : Statement (.write f) := by
  intro cfg h
  refine of_command (f := f) rfl ?_ ?_
  · cases f <;> rfl
  · cases f <;> exact h

theorem longWrite (f : CommandForm) : Statement (.longWrite f) := by
  intro cfg h
  refine of_command (f := f) rfl ?_ ?_
  · cases f <;> rfl
  · cases f <;> exact h

theorem response (f : CommandForm) : Statement (.response f) := by
  intro cfg h
  refine of_command (f := f) rfl ?_ ?_
  · cases f <;> rfl
  · cases f <;> exact h

theorem longResponse (f : CommandForm) : Statement (.longResponse f) := by
  intro cfg h
  refine of_command (f := f) rfl ?_ ?_
  · cases f <;> rfl
  · cases f <;> exact h

theorem extra (x : Byte) (f : CommandForm) : Statement (.extra x f) := by
  intro cfg h
  refine of_command (f := f) rfl ?_ ?_
  · cases f <;> rfl
  · cases f <;> exact h

theorem sentinel (f : CommandForm) : Statement (.sentinel f) := by
  intro cfg h
  refine of_command (f := f) rfl ?_ ?_
  · cases f <;> rfl
  · cases f <;> exact h

theorem otherByte (b : Byte) (f : CommandForm) : Statement (.otherByte b f) := by
  intro cfg h
  refine of_command (f := f) rfl ?_ ?_
  · cases f <;> rfl
  · cases f <;> exact h

theorem start (u : Nat) : Statement (.start u) := by
  intro cfg _
  exact ⟨u, _, [], rfl, fun _ => rfl⟩

theorem esc (u : Nat) : Statement (.esc u) := by
  intro cfg _
  exact ⟨u, _, [], rfl, fun _ => rfl⟩

theorem enc (cmd : Byte) (a : EncOperands) : Statement (.enc cmd a) := by
  intro cfg h
  exact absurd h (by simp [Instr.hasWord, Instr.form])

theorem new (u : Nat) (ft : FrameType) : Statement (.new u ft) := by
  intro cfg h
  exact absurd h (by simp [Instr.hasWord, Instr.form])

theorem consume (u : Nat) (chunk : List Byte) : Statement (.consume u chunk) := by
  intro cfg h
  exact absurd h (by simp [Instr.hasWord, Instr.form])

theorem isComplete (u : Nat) : Statement (.isComplete u) := by
  intro cfg h
  exact absurd h (by simp [Instr.hasWord, Instr.form])

theorem isValid (u : Nat) : Statement (.isValid u) := by
  intro cfg h
  exact absurd h (by simp [Instr.hasWord, Instr.form])

theorem getId (u : Nat) : Statement (.getId u) := by
  intro cfg h
  exact absurd h (by simp [Instr.hasWord, Instr.form])

theorem getAddress (u : Nat) : Statement (.getAddress u) := by
  intro cfg h
  exact absurd h (by simp [Instr.hasWord, Instr.form])

theorem getData (u : Nat) : Statement (.getData u) := by
  intro cfg h
  exact absurd h (by simp [Instr.hasWord, Instr.form])

theorem getCommand (u : Nat) : Statement (.getCommand u) := by
  intro cfg h
  exact absurd h (by simp [Instr.hasWord, Instr.form])

theorem getFrameType (u : Nat) : Statement (.getFrameType u) := by
  intro cfg h
  exact absurd h (by simp [Instr.hasWord, Instr.form])

end Sys2Proof.Laws.EncodedWord
end

