-- ==== Sys2Proof/Tests/Slice0.lean ====
section
/-! SUPPORT. Tests. Expected values are those of spec/95_test_vectors.md (the section is named at each
test) or of the examples in the rules. `witness_…` theorems show concrete states and operands that meet the
hypotheses of the obligation they name, each clause at a boundary of its range. -/

namespace Sys2Proof.Tests

open Sys2Proof Sys2Proof.Machine

/-! ### Helpers -/

/-- Configuration T (95_test_vectors.md section 0.1). -/
def cfgT : Cfg := { resetCfg with ck := .sum16, valid := by decide }

/-- Configuration X (95_test_vectors.md section 0.1). -/
def cfgX : Cfg where
  start := 0x7E; esc := 0x7D
  cmdRead := 0x10; cmdWrite := 0x20; cmdLongWrite := 0x30; cmdResponse := 0x50; cmdLongResponse := 0x60
  cmdExtra := [0x40]; cmdNone := 0x00; ftPlant := 3; ck := .sum16; bufCap := 65541; valid := by decide

/-- A state with the one unit 0. -/
def one (cfg : Cfg) (d : Decoder) : State := { cfg := cfg, units := [(0, d)], pending := [], reply := .idle }

/-- A state with the fresh unit 0. -/
def fresh (cfg : Cfg) (ft : FrameType) : State := one cfg (Decoder.fresh ft)

/-- The next state, if the outcome is one. -/
def nextOf : Host.Outcome State Fault Refusal → Option State
  | .next t => some t
  | .fault _ => none
  | .refused _ => none

/-- The reply an instruction leaves. -/
def replyOf (i : Instr) (s : State) : Option Reply := (nextOf (exec i s)).map (·.reply)

/-- Unit 0 after an instruction. -/
def unitOf (i : Instr) (s : State) : Option Decoder := (nextOf (exec i s)).bind (·.unit 0)

/-- The instruction a byte word decodes to. -/
def readAs (cfg : Cfg) (u : Nat) (bytes : List Byte) : Option Instr :=
  match decode cfg u bytes with
  | .ok i => some i
  | .error _ => none

/-- The unit in BODY of section 2.7: `CONSUME [2B 02 06 00 00]` on a fresh standard unit. -/
def bodyUnit : Decoder := { Decoder.fresh .standard with buf := [0x2B, 2, 6, 0, 0], target := some 9 }

/-- The VALID unit of section 1.2. -/
def goodUnit : Decoder :=
  validUnit .standard [0x2B, 2, 6, 0, 0, 0, 0x10, 0xAA, 0xBB, 1, 0x7D] 9 2 0 0x10 [0xAA, 0xBB]

/-- The CRC_FAILED unit of section 1.3. -/
def badUnit : Decoder :=
  failedUnit .standard [0x2B, 2, 6, 0, 0, 0, 0x10, 0xAB, 0xBB, 1, 0x7D] (some 9) false .checksumMismatch

/-- The CMD_FAILED unit of section 2.6 row 4. -/
def cmdUnit : Decoder := failedUnit .standard [0x2B, 7, 4, 0, 0, 0, 1, 0, 0xC] (some 7) true .unknownCommand

/-- The LEN_FAILED unit of section 2.6 row 10. -/
def lenUnit : Decoder := failedUnit .plant [0x2B, 2, 7, 0] none false .badLength

/-- A unit that the loop of CONSUME leaves from a fresh one is legal. -/
theorem legal_of_loop {cfg : Cfg} {ft : FrameType} {l : List Byte} {o : ConsumeOutcome} {d : Decoder}
    (h : consumeLoop cfg (Decoder.fresh ft) l 0 = some o) (hd : o.dec = d) : d.Inv cfg := by
  obtain ⟨o', ho, hi⟩ := consumeLoop_inv l (fresh_inv cfg ft) rfl 0
  rw [h, Option.some.injEq] at ho
  subst ho
  exact hd ▸ hi

/-- A state with one legal unit is legal. -/
theorem legal_one {cfg : Cfg} {d : Decoder} (h : d.Inv cfg) : (one cfg d).Inv where
  sorted := by simp [unitsWf, one]
  units v e hv := by
    simp only [State.unit, one, lookupUnit] at hv
    split at hv
    · rw [Option.some.injEq] at hv; exact hv ▸ h
    · simp at hv

theorem bodyUnit_legal : bodyUnit.Inv cfgT :=
  legal_of_loop (ft := .standard) (l := [0x2B, 2, 6, 0, 0]) (o := .returned bodyUnit 5) (by decide) rfl
theorem goodUnit_legal : goodUnit.Inv cfgT :=
  legal_of_loop (ft := .standard) (l := [0x2B, 2, 6, 0, 0, 0, 0x10, 0xAA, 0xBB, 1, 0x7D]) (o := .returned goodUnit 11)
    (by decide) rfl
theorem badUnit_legal : badUnit.Inv cfgT :=
  legal_of_loop (ft := .standard) (l := [0x2B, 2, 6, 0, 0, 0, 0x10, 0xAB, 0xBB, 1, 0x7D])
    (o := .raised badUnit (.checksumMismatch 0x017D 0x017E 11)) (by decide) rfl

/-! ### Well-formedness: ill-formed terms are refused -/

/-- 0x41 is no member of `CMD_EXTRA` (R140). -/
theorem test_wf_refuses_extra_outside_the_set :
    Instr.wf cfgX (.extra 0x41 (.recv 0 [])) = false ∧ Instr.wf cfgX (.extra 0x40 (.recv 0 [])) = true := by
  decide

/-- A named command, a member of `CMD_EXTRA` and the sentinel are not "any other byte" (R84). -/
theorem test_wf_refuses_other_for_an_assigned_byte :
    Instr.wf cfgX (.otherByte 0x10 (.recv 0 [])) = false ∧
    Instr.wf cfgX (.otherByte 0x40 (.recv 0 [])) = false ∧
    Instr.wf cfgX (.otherByte 0x00 (.recv 0 [])) = false ∧
    Instr.wf cfgX (.otherByte 0x41 (.recv 0 [])) = true := by
  decide

/-- A transaction has no byte word; a frame whose command byte equals a token has none either (log entry 11). -/
theorem test_word_only_of_wire_rows :
    Instr.hasWord cfgT (.new 0 .plant) = false ∧ Instr.hasWord cfgT (.read (.send { id := 1 })) = false ∧
    Instr.hasWord cfgT (.otherByte 0x2B (.recv 0 [])) = false ∧ Instr.hasWord cfgT (.start 0) = true := by
  decide

/-! ### Decoding: words written from the table's `match` column and the formats of R71 -/

theorem test_decode_read : readAs cfgT 3 [0b00000001, 4, 0, 0, 0, 1, 0, 6] =
    some (.read (.recv 3 [4, 0, 0, 0, 1, 0, 6])) := by decide
theorem test_decode_write : readAs cfgT 0 [0b00000010, 4, 0, 0, 0, 0x10, 0, 0x16] =
    some (.write (.recv 0 [4, 0, 0, 0, 0x10, 0, 0x16])) := by decide
theorem test_decode_longWrite : readAs cfgT 0 [0b00000011, 0, 4, 0, 0, 0, 7, 0, 0x0E] =
    some (.longWrite (.recv 0 [0, 4, 0, 0, 0, 7, 0, 0x0E])) := by decide
theorem test_decode_response : readAs cfgT 0 [0b00000101, 4, 0, 0, 0, 1, 0, 0x0A] =
    some (.response (.recv 0 [4, 0, 0, 0, 1, 0, 0x0A])) := by decide
theorem test_decode_longResponse : readAs cfgT 0 [0b00000110, 0, 4, 0, 0, 0, 7, 0, 0x11] =
    some (.longResponse (.recv 0 [0, 4, 0, 0, 0, 7, 0, 0x11])) := by decide
theorem test_decode_extra : readAs cfgX 0 [0b01000000, 4] = some (.extra 0x40 (.recv 0 [4])) := by decide
theorem test_decode_sentinel : readAs cfgT 0 [0b11111111, 4] = some (.sentinel (.recv 0 [4])) := by decide
theorem test_decode_otherByte : readAs cfgT 0 [0b00000111, 4] = some (.otherByte 7 (.recv 0 [4])) := by
  decide
theorem test_decode_start : readAs cfgT 2 [0b00101011] = some (.start 2) := by decide
theorem test_decode_esc : readAs cfgT 2 [0b00101101] = some (.esc 2) := by decide

/-- No byte, and a token with a tail, are no words of the table. -/
theorem test_decode_rejects_by_name :
    decode cfgT 0 [] = .error .noBytes ∧ decode cfgT 0 [0x2B, 1] = .error .tokenWithTail := by
  decide

/-- The ten transactions are handed over as they are (R10, D1). -/
theorem test_fetch_transactions : ∀ i ∈ [Instr.enc 1 { id := 1 }, .new 0 .plant, .consume 0 [1],
    .isComplete 0, .isValid 0, .getId 0, .getAddress 0, .getData 0, .getCommand 0, .getFrameType 0],
    fetch cfgT (.call i) = .ok i := by
  decide +kernel

/-- The table's first word, placed and stepped from reset: there is no instance yet (R231). -/
theorem test_first_step_from_reset :
    ((nextOf (step (State.reset.withFetchWord 8 1))).map (·.reply)) = some (.refused .noInstance) := by
  decide

/-! ### Stuffing and the checksum functions -/

/-- Section 2.1 rows 6 and 7. -/
theorem test_stuff : stuff cfgT [0x01, 0x2B, 0x2D, 0x05] = [0x01, 0x2D, 0x2B, 0x2D, 0x2D, 0x05] ∧
    stuff cfgT [0x2C, 0x2E, 0x2A] = [0x2C, 0x2E, 0x2A] := by decide

/-- Section 2.2, last row: the inverse. -/
theorem test_unstuff :
    unstuffAll cfgT false [0x01, 0x2D, 0x2B, 0x2D, 0x2D, 0x05] = (false, [0x01, 0x2B, 0x2D, 0x05]) := by
  decide

/-- Section 2.3: `ck_G` of an even and of an odd number of bytes. -/
theorem test_crcG : crcG [1, 4, 0, 0, 0, 1] = 0xD297 ∧ crcG [6, 0, 4, 0, 0, 0, 7] = 0x2EC3 := by decide +kernel

/-! ### ENC (section 2.4) -/

/-- Rows 1 and 2: the payload of a read-request is dropped. -/
theorem test_send_read : replyOf (.read (.send { id := 1, payload := [0xDE, 0xAD] })) (one cfgT goodUnit) =
    some (.returned (.wire [0x2B, 1, 4, 0, 0, 0, 1, 0, 6])) := by decide
/-- Row 6: reserved bytes are escaped. -/
theorem test_send_write :
    replyOf (.write (.send { id := 0x2B2D002B, payload := [0x2B, 0x2D, 0] })) (fresh cfgT .plant) =
      some (.returned (.wire [0x2B, 2, 7, 0x2D, 0x2B, 0x2D, 0x2D, 0, 0x2D, 0x2B, 0x2D, 0x2B, 0x2D, 0x2D, 0, 0,
        0xE4])) := by decide
/-- Row 9. -/
theorem test_send_longWrite : replyOf (.longWrite (.send { id := 0x10, payload := [1, 2, 3] })) State.reset =
    some (.returned (.wire [0x2B, 3, 0, 7, 0, 0, 0, 0x10, 1, 2, 3, 0xED, 0x78])) := by decide +kernel
/-- Row 8. -/
theorem test_send_response :
    replyOf (.response (.send { id := 0x959930BF, payload := [0x42, 0x48, 0, 0] })) (fresh cfgT .standard) =
      some (.returned (.wire [0x2B, 5, 8, 0x95, 0x99, 0x30, 0xBF, 0x42, 0x48, 0, 0, 2, 0xB4])) := by decide
/-- Row 13: plant. -/
theorem test_send_longResponse : replyOf (.longResponse (.send
      { id := 0x10, payload := [0x55, 0x66], addr := 0xA0B0C0D0, ft := .plant })) (fresh cfgT .standard) =
    some (.returned (.wire [0x2B, 6, 0, 0x12, 0xA0, 0xB0, 0xC0, 0xD0, 0, 0, 0, 0x10, 0x55, 0x66, 3, 0xC3])) := by
  decide
/-- R140, computed by hand under X: pre `40 05 00 00 00 02 01`, sum 0x48. -/
theorem test_send_extra : replyOf (.extra 0x40 (.send { id := 2, payload := [1] })) (fresh cfgX .standard) =
    some (.returned (.wire [0x7E, 0x40, 5, 0, 0, 0, 2, 1, 0, 0x48])) := by decide
/-- Section 2.4.2, the refusals of a command outside KNOWN. -/
theorem test_send_unknown :
    replyOf (.sentinel (.send { id := 1 })) State.reset = some (.refused (.encBadCommand 0xFF)) ∧
    replyOf (.otherByte 7 (.send { id := 1 })) State.reset = some (.refused (.encBadCommand 7)) := by decide
/-- Section 2.4.2: one byte too many, and one command too many before the length is looked at. -/
theorem test_enc_refusals :
    replyOf (.enc 2 { id := 1, payload := List.replicate 252 0 }) State.reset =
      some (.refused (.encLengthOverflow 256 1)) ∧
    replyOf (.enc 7 { id := 1, payload := List.replicate 300 0 }) State.reset =
      some (.refused (.encBadCommand 7)) := by decide +kernel

/-! ### Frames arriving (44_decoder_decode.md section 2, 95 section 2.6) -/

/-- R186. -/
theorem test_recv_read : unitOf (.read (.recv 0 [4, 0, 0, 0, 1, 0, 6])) (fresh cfgT .standard) =
    some (validUnit .standard [0x2B, 1, 4, 0, 0, 0, 1, 0, 6] 7 1 0 1 []) := by decide
/-- R187, section 1.2. -/
theorem test_recv_write : unitOf (.write (.recv 0 [6, 0, 0, 0, 0x10, 0xAA, 0xBB, 1, 0x7D]))
    (fresh cfgT .standard) = some goodUnit := by decide
/-- R188. -/
theorem test_recv_longWrite : unitOf (.longWrite (.recv 0 [0, 7, 0, 0, 0, 0x10, 1, 2, 3, 0, 0x20]))
    (fresh cfgT .standard) =
    some (validUnit .standard [0x2B, 3, 0, 7, 0, 0, 0, 0x10, 1, 2, 3, 0, 0x20] 11 3 0 0x10 [1, 2, 3]) := by
  decide
/-- R189. -/
theorem test_recv_response :
    (unitOf (.response (.recv 0 [8, 0x95, 0x99, 0x30, 0xBF, 0x42, 0x48, 0, 0, 2, 0xB4]))
      (fresh cfgT .standard)).map (fun d => (d.cmd, d.id, d.data)) =
    some (.code 5, 0x959930BF, [0x42, 0x48, 0, 0]) := by decide
/-- R190, plant. -/
theorem test_recv_longResponse :
    (unitOf (.longResponse (.recv 0 [0, 0x12, 0xA0, 0xB0, 0xC0, 0xD0, 0, 0, 0, 0x10, 0x55, 0x66, 3, 0xC3]))
      (fresh cfgT .plant)).map (fun d => (d.cmd, d.addr, d.id, d.data, d.target)) =
    some (.code 6, 0xA0B0C0D0, 0x10, [0x55, 0x66], some 14) := by decide
/-- R191, the frame of `test_send_extra`. -/
theorem test_recv_extra :
    (unitOf (.extra 0x40 (.recv 0 [5, 0, 0, 0, 2, 1, 0, 0x48])) (fresh cfgX .standard)).map
      (fun d => (d.cmd, d.id, d.data, d.status)) = some (.code 0x40, 2, [1], some .valid) := by decide
/-- Section 2.6 row 6. -/
theorem test_recv_sentinel : replyOf (.sentinel (.recv 0 [4, 0, 0, 0, 1, 1, 4])) (fresh cfgT .standard) =
    some (.raised (.unknownCommand 0xFF 9)) := by decide
/-- Section 2.6 rows 4 and 7: the checksum comes first. -/
theorem test_recv_otherByte :
    unitOf (.otherByte 7 (.recv 0 [4, 0, 0, 0, 1, 0, 0xC])) (fresh cfgT .standard) = some cmdUnit ∧
    replyOf (.otherByte 7 (.recv 0 [4, 0, 0, 0, 1, 0, 0xD])) (fresh cfgT .standard) =
      some (.raised (.checksumMismatch 0xD 0xC 9)) := by decide

/-! ### Tokens, NEW, CONSUME (section 2.5) -/

/-- R149 and the trace 2.5.1, byte 1; R109. -/
theorem test_start : unitOf (.start 0) (fresh cfgT .plant) =
      some { Decoder.fresh .plant with buf := [0x2B] } ∧
    (unitOf (.start 0) (one cfgT bodyUnit)).map (·.buf) = some [0x2B, 2, 6, 0, 0, 0x2B] := by decide
/-- R105; the trace 2.5.1, bytes 6 and 7. -/
theorem test_esc : unitOf (.esc 0) (fresh cfgT .plant) = some (Decoder.fresh .plant) ∧
    unitOf (.esc 0) (one cfgT { bodyUnit with esc := true }) =
      some { bodyUnit with buf := [0x2B, 2, 6, 0, 0, 0x2D] } := by decide
/-- R230: NEW in a terminal status. -/
theorem test_new : unitOf (.new 0 .plant) (one cfgT badUnit) = some (Decoder.fresh .plant) := by decide
/-- Section 2.5.2 row 4: ESC before the start token is noise, after it is not. -/
theorem test_consume_resync : (replyOf (.consume 0 [0x2D, 0x2B, 0x2D]) (fresh cfgT .standard),
    unitOf (.consume 0 [0x2D, 0x2B, 0x2D]) (fresh cfgT .standard)) =
    (some (.returned (.count 3)), some { Decoder.fresh .standard with buf := [0x2B], esc := true }) := by decide
/-- Section 2.5.3: leftover bytes are not counted. -/
theorem test_consume_leftover :
    replyOf (.consume 0 [0x2B, 1, 4, 0, 0, 0, 1, 0, 6, 0x2B, 1, 4]) (fresh cfgT .standard) =
      some (.returned (.count 9)) := by decide

/-! ### Accessors (section 2.7) -/

theorem test_isComplete : replyOf (.isComplete 0) (one cfgT badUnit) = some (.returned (.bool true)) ∧
    replyOf (.isComplete 0) (one cfgT bodyUnit) = some (.returned (.bool false)) := by decide
theorem test_isValid : replyOf (.isValid 0) (one cfgT goodUnit) = some (.returned (.bool true)) ∧
    replyOf (.isValid 0) (one cfgT cmdUnit) = some (.returned (.bool false)) := by decide
theorem test_getId : replyOf (.getId 0) (one cfgT goodUnit) = some (.returned (.word 0x10)) ∧
    replyOf (.getId 0) (one cfgT bodyUnit) = some (.refused .notComplete) := by decide
theorem test_getAddress : replyOf (.getAddress 0) (one cfgT
      (validUnit .plant [0x2B, 2, 0x11, 1, 2, 3, 4, 0, 0, 0, 0x10, 0xAA, 0, 0xD7] 12 2 0x01020304 0x10 [0xAA])) =
      some (.returned (.word 0x1020304)) ∧
    replyOf (.getAddress 0) (one cfgT badUnit) = some (.returned (.word 0)) := by decide
theorem test_getData : replyOf (.getData 0) (one cfgT goodUnit) = some (.returned (.bytes [0xAA, 0xBB])) ∧
    replyOf (.getData 0) (one cfgT badUnit) = some (.returned (.bytes [])) := by decide
theorem test_getCommand : replyOf (.getCommand 0) (one cfgT goodUnit) = some (.returned (.command (.code 2))) ∧
    replyOf (.getCommand 0) (one cfgT lenUnit) = some (.returned (.command .none)) := by decide
theorem test_getFrameType : replyOf (.getFrameType 0) (fresh cfgT .plant) =
      some (.returned (.frameType .plant)) ∧
    replyOf (.getFrameType 0) State.reset = some (.refused .noInstance) := by decide

/-! ### Witnesses of the obligations' hypotheses -/

theorem witness_StepRunsTheFetchedInstruction :
    State.reset.pending = [] ∧
    ({ State.reset with pending := [.call (.new 0 .plant)] } : State).pending = .call (.new 0 .plant) :: [] ∧
    (State.reset.withFetchWord 8 1).pending = .wire 0 [1, 0, 0, 0, 0, 0, 0, 0] :: [] ∧
    decode State.reset.cfg 0 [1, 0, 0, 0, 0, 0, 0, 0] = .ok (.read (.recv 0 [0, 0, 0, 0, 0, 0, 0])) ∧
    (State.reset.withFetchWord 0 0).pending = .wire 0 [] :: [] ∧
    (State.reset.withFetchWord 16 0x012B).pending = .wire 0 (0x2B :: 1 :: []) :: [] ∧
    isReserved State.reset.cfg 0x2B = true := by decide

theorem witness_DecodeInvertsEncode :
    Instr.wf cfgX (.extra 0x40 (.recv 0 [])) = true ∧ Instr.hasWord cfgX (.extra 0x40 (.recv 0 [])) = true ∧
    Instr.wf cfgX (.esc 0) = true ∧ Instr.hasWord cfgX (.esc 0) = true := by decide

theorem witness_EncodeInvertsDecode :
    decode cfgX 0 [0x40] = .ok (.extra 0x40 (.recv 0 [])) ∧ decode cfgX 0 [0x7E] = .ok (.start 0) := by decide

theorem witness_NeedlessEscapeIsAccepted :
    (0x2C : Byte) ≠ cfgT.start ∧ (0x2C : Byte) ≠ cfgT.esc ∧
    stuff cfgT [1, 0x2B] = [1] ++ cfgT.esc :: 0x2B :: [] ∧ (unstuffAll cfgT false [1]).1 = false := by decide

theorem witness_EncReturnsTheWireForm :
    isKnown cfgT cfgT.cmdWrite = true ∧
    frameLength cfgT .standard (List.replicate 251 0) = 255 ∧
    frameLength cfgT .plant (List.replicate 239 0) = 255 := by decide +kernel

theorem witness_EncRefusesLengthsThatDoNotFit :
    isKnown cfgT cfgT.cmdWrite = true ∧
    frameLength cfgT .standard (List.replicate 252 0) = 256 ∧
    frameLength cfgT .plant (List.replicate 240 0) = 256 := by decide +kernel

theorem witness_EncRefusesUnknownCommands :
    isKnown cfgT 7 = false ∧ isKnown cfgT 0xFF = false ∧
    Instr.wf cfgT (.otherByte 7 (.send { id := 1 })) = true := by decide

/-- `FT_PLANT + 8` is 255 for the largest plant tag a short frame can carry, 256 for the next. -/
theorem witness_ReadSendReturnsItsFrame :
    ftValue { cfgT with ftPlant := 247, valid := by decide } .plant + addrSize .plant + 4 = 255 ∧
    ftValue { cfgT with ftPlant := 248, valid := by decide } .plant + addrSize .plant + 4 = 256 ∧
    ftValue cfgT .standard + addrSize .standard + 4 = 4 := by decide

theorem witness_ShortCommandsSendReturnTheirFrame :
    (0x40 : Byte) ∈ cfgX.cmdExtra ∧ frameLength cfgX .standard (List.replicate 251 0) = 255 ∧
    frameLength cfgX .standard (List.replicate 252 0) = 256 := by decide +kernel

theorem witness_LongCommandsSendReturnTheirFrame :
    frameLength cfgT .standard (List.replicate 65531 0) = 65535 ∧
    frameLength cfgT .standard (List.replicate 65532 0) = 65536 := by
  rw [frameLength, frameLength, List.length_replicate, List.length_replicate]
  decide

theorem witness_EncOutputDependsOnlyOnEffectiveOperands :
    cfgT.cmdRead = cfgT.cmdRead ∧
    ({ id := 1, payload := [1], addr := 2 } : EncOperands).id = ({ id := 1 } : EncOperands).id ∧
    ({ id := 1, payload := [1], addr := 2 } : EncOperands).ft = ({ id := 1 } : EncOperands).ft ∧
    ({ id := 1, payload := [1], addr := 2 } : EncOperands).payload ≠ ({ id := 1 } : EncOperands).payload ∧
    ({ id := 1, payload := [1], addr := 2 } : EncOperands).ft = .standard := by decide

/-- An ENC that returns bytes (section 2.4.1 row 1). -/
theorem enc_read_returns : exec (.enc 1 { id := 1 }) (fresh cfgT .standard) =
    .next ((fresh cfgT .standard).returns (.wire [0x2B, 1, 4, 0, 0, 0, 1, 0, 6])) := rfl

theorem witness_WireFormHoldsNoBareStart :
    exec (.enc 1 { id := 1 }) (fresh cfgT .standard) =
      .next ((fresh cfgT .standard).returns (.wire [0x2B, 1, 4, 0, 0, 0, 1, 0, 6])) ∧
    ((fresh cfgT .standard).returns (.wire [0x2B, 1, 4, 0, 0, 0, 1, 0, 6])).reply =
      .returned (.wire [0x2B, 1, 4, 0, 0, 0, 1, 0, 6]) ∧
    (fresh cfgT .standard).unit 0 = some (Decoder.fresh .standard) :=
  ⟨enc_read_returns, rfl, rfl⟩

/-- The smallest frame of R86: 8 bytes before stuffing, 9 on the wire. -/
theorem witness_EncodedFrameSizes :
    exec (.enc 1 { id := 1 }) (fresh cfgT .standard) =
      .next ((fresh cfgT .standard).returns (.wire [0x2B, 1, 4, 0, 0, 0, 1, 0, 6])) ∧
    ((fresh cfgT .standard).returns (.wire [0x2B, 1, 4, 0, 0, 0, 1, 0, 6])).reply =
      .returned (.wire [0x2B, 1, 4, 0, 0, 0, 1, 0, 6]) :=
  ⟨enc_read_returns, rfl⟩

theorem witness_EncodedFrameDecodesBack :
    exec (.enc 1 { id := 1 }) (fresh cfgT .standard) =
      .next ((fresh cfgT .standard).returns (.wire [0x2B, 1, 4, 0, 0, 0, 1, 0, 6])) ∧
    (fresh cfgT .standard).unit 0 = some (Decoder.fresh ({ id := 1 } : EncOperands).ft) :=
  ⟨enc_read_returns, rfl⟩

theorem witness_NoiseBeforeAFrameIsIgnored :
    exec (.enc 1 { id := 1 }) (fresh cfgT .standard) =
      .next ((fresh cfgT .standard).returns (.wire [0x2B, 1, 4, 0, 0, 0, 1, 0, 6])) ∧
    (fresh cfgT .standard).unit 0 = some (Decoder.fresh .standard) ∧
    cfgT.start ∉ ([0x00, 0x2D, 0xFF] : List Byte) :=
  ⟨enc_read_returns, rfl, by decide⟩

theorem witness_EveryPortButNewNeedsAnInstance :
    State.reset.unit 0 = none ∧ drivenUnit (.consume 0 []) = some 0 ∧ ¬ renews 0 (.consume 0 []) :=
  ⟨rfl, rfl, id⟩

theorem witness_InstructionsTouchOnlyTheirUnit :
    exec (.isComplete 0) (one cfgT goodUnit) = .next ((one cfgT goodUnit).returns (.bool true)) ∧
    drivenUnit (.isComplete 0) ≠ some 1 := ⟨rfl, by decide⟩

theorem witness_TerminalUnitLeftOnlyByNew :
    (one cfgT goodUnit).unit 0 = some goodUnit ∧ goodUnit.complete = true ∧
    feeds 0 (.consume 0 []) ∧ ¬ renews 0 (.consume 0 []) ∧
    exec (.consume 0 []) (one cfgT goodUnit) = .next ((one cfgT goodUnit).refuses .spent) :=
  ⟨rfl, rfl, rfl, id, rfl⟩

theorem witness_BufferIsAppendOnly :
    (fresh cfgT .plant).unit 0 = some (Decoder.fresh .plant) ∧ ¬ renews 0 (.start 0) ∧
    exec (.start 0) (fresh cfgT .plant) = .next (((fresh cfgT .plant).setUnit 0
      { Decoder.fresh .plant with buf := [0x2B] }).returns (.count 1)) := ⟨rfl, id, rfl⟩

theorem witness_NoiseIsDiscardedUntilStart :
    (fresh cfgT .plant).unit 0 = some (Decoder.fresh .plant) ∧ (Decoder.fresh .plant).complete = false ∧
    (Decoder.fresh .plant).buf = [] ∧ (Decoder.fresh .plant).target = none ∧ cfgT.start ∉ ([] : List Byte) ∧
    cfgT.start ∉ ([0x00, 0xFF, 0x2D] : List Byte) := by decide

/-- One byte in the buffer, and one short of the last append: `len(buf) + 1 = 10 ≠ 9 + 2`. -/
theorem witness_StartTokenOpensOrIsData :
    (one cfgT bodyUnit).unit 0 = some bodyUnit ∧ bodyUnit.complete = false ∧
    (Decoder.fresh .plant).buf = [] ∧ bodyUnit.buf ≠ [] ∧ bodyUnit.buf.length ≠ 3 ∧
    (∀ t, bodyUnit.target = some t → bodyUnit.buf.length + 1 ≠ t + 2) ∧
    (∀ t, ({ bodyUnit with buf := [0x2B, 2, 6, 0, 0, 0, 0x10, 0xAA, 0xBB] } : Decoder).target = some t →
      9 + 1 ≠ t + 2) := by
  refine ⟨rfl, rfl, rfl, by decide, by decide, ?_, ?_⟩ <;>
    · intro t h
      simp only [bodyUnit, Option.some.injEq] at h ⊢
      subst h
      decide

theorem witness_EscTokenIsDroppedOrVerbatim :
    (one cfgT { bodyUnit with esc := true }).unit 0 = some { bodyUnit with esc := true } ∧
    bodyUnit.complete = false ∧ bodyUnit.buf ≠ [] ∧ bodyUnit.esc = false ∧
    (Decoder.fresh .plant).buf = [] ∧ ({ bodyUnit with esc := true } : Decoder).buf.length ≠ 3 ∧
    ∀ t, ({ bodyUnit with esc := true } : Decoder).target = some t → 5 + 1 ≠ t + 2 := by
  refine ⟨rfl, rfl, by decide, rfl, rfl, by decide, fun t h => ?_⟩
  simp only [bodyUnit, Option.some.injEq] at h
  subst h
  decide

/-- `FT_PLANT = 8`: the declared length 8 fixes a target, 7 does not. -/
theorem witness_FourthByteSetsTheTarget :
    (fresh cfgT .plant).unit 0 = some (Decoder.fresh .plant) ∧
    ftValue cfgT .plant ≤ (8 : Byte).toNat ∧ (7 : Byte).toNat < ftValue cfgT .plant ∧
    ftValue cfgT .standard ≤ (0 : Byte).toNat ∧
    ftValue cfgT .plant ≤ (1 : Byte).toNat * 256 + (0 : Byte).toNat := by decide

theorem witness_ConsumeCountsWhatItTakes :
    (one cfgT bodyUnit).Inv ∧ (one cfgT bodyUnit).unit 0 = some bodyUnit ∧ bodyUnit.complete = false :=
  ⟨legal_one bodyUnit_legal, rfl, rfl⟩

theorem witness_LeftoverBytesStayWithTheHost :
    (one cfgT bodyUnit).unit 0 = some bodyUnit ∧ bodyUnit.complete = false ∧
    exec (.consume 0 [0, 0x10, 0xAA, 0xBB, 1, 0x7D]) (one cfgT bodyUnit) =
      .next (((one cfgT bodyUnit).setUnit 0 goodUnit).returns (.count 6)) ∧
    (((one cfgT bodyUnit).setUnit 0 goodUnit).returns (.count 6)).unit 0 = some goodUnit ∧
    (one cfgT bodyUnit).Inv ∧ goodUnit.complete = true :=
  ⟨rfl, rfl, rfl, rfl, legal_one bodyUnit_legal, rfl⟩

/-- A chunk that leaves the unit not complete (the empty one), and one that completes it. -/
theorem witness_ChunkingInvariance :
    (one cfgT bodyUnit).Inv ∧ (one cfgT bodyUnit).unit 0 = some bodyUnit ∧ bodyUnit.complete = false ∧
    exec (.consume 0 []) (one cfgT bodyUnit) =
      .next (((one cfgT bodyUnit).setUnit 0 bodyUnit).returns (.count 0)) ∧
    exec (.consume 0 [0, 0x10, 0xAA, 0xBB, 1, 0x7D]) (one cfgT bodyUnit) =
      .next (((one cfgT bodyUnit).setUnit 0 goodUnit).returns (.count 6)) ∧ goodUnit.complete = true :=
  ⟨legal_one bodyUnit_legal, rfl, rfl, rfl, rfl, rfl⟩

/-- The largest payload of a short and of a long standard frame. -/
theorem witness_ReceivedFramesAreDecoded :
    (fresh cfgX .standard).unit 0 = some (Decoder.fresh .standard) ∧ (0x40 : Byte) ∈ cfgX.cmdExtra ∧
    frameLength cfgX .standard (List.replicate 251 0) < 256 ^ 1 ∧
    frameLength cfgX .standard (List.replicate 65531 0) < 256 ^ 2 := by
  rw [frameLength, frameLength, List.length_replicate, List.length_replicate]
  decide

/-- The smallest declared lengths: 0 for standard, `FT_PLANT` for plant. -/
theorem witness_ReceivedUnknownCommandsAreReported :
    (fresh cfgT .plant).unit 0 = some (Decoder.fresh .plant) ∧
    (0 : Byte).toNat = ftValue cfgT .standard + ([] : List Byte).length ∧
    (8 : Byte).toNat = ftValue cfgT .plant + ([] : List Byte).length ∧
    Instr.wf cfgT (.otherByte 7 (.recv 0 [])) = true := by decide

theorem witness_ChecksumMismatchIsReported :
    (fresh cfgT .standard).unit 0 = some (Decoder.fresh .standard) ∧
    ftValue cfgT .standard + ([] : List Byte).length < 256 ^ lengthWidth cfgT 2 ∧
    (3 : Half) ≠ checksum cfgT.ck (2 :: be (lengthWidth cfgT 2) 0 ++ []) := by decide

/-- One byte short of the id (standard), and of the address and the id (plant). -/
theorem witness_ShortBodyIsReported :
    (fresh cfgT .plant).unit 0 = some (Decoder.fresh .plant) ∧ isKnown cfgT 2 = true ∧
    ([0, 0, 0] : List Byte).length < addrSize .standard + 4 ∧
    (List.replicate 7 0 : List Byte).length < addrSize .plant + 4 ∧
    ftValue cfgT .plant + (List.replicate 7 0 : List Byte).length < 256 ^ lengthWidth cfgT 2 := by decide

/-- The byte sum moves by the bit that is flipped. -/
theorem byteSum_set (x : List Byte) (acc k : Nat) (v : Byte) (h : k < x.length) :
    (x.set k v).foldl (fun acc b => acc + b.toNat) acc + (x.getD k 0).toNat =
      x.foldl (fun acc b => acc + b.toNat) acc + v.toNat := by
  have shift : ∀ (l : List Byte) (a b : Nat), l.foldl (fun acc b => acc + b.toNat) (a + b) =
      l.foldl (fun acc b => acc + b.toNat) a + b := by
    intro l
    induction l with
    | nil => simp
    | cons y l ih => intro a b; simp only [List.foldl_cons]; rw [← ih]; congr 1; omega
  induction x generalizing acc k with
  | nil => simp at h
  | cons y x ih =>
    cases k with
    | zero => simp only [List.set_cons_zero, List.foldl_cons, List.getD_cons_zero, shift]; omega
    | succ k => simpa using ih (acc + y.toNat) k (by simpa using h)

/-- `SUM16` meets the hypothesis of R120. -/
theorem sum16_separates : SeparatesOneBit .sum16 := by
  intro x k j hk hj h
  have hs := byteSum_set x 0 k (x.getD k 0 ^^^ (1#8 <<< j)) hk
  simp only [checksum, sum16, flipBit] at h
  have h' := congrArg BitVec.toNat h
  simp only [BitVec.toNat_ofNat] at h'
  have hne : ∀ b : Byte, ∀ j < 8, (b ^^^ (1#8 <<< j)).toNat ≠ b.toNat := by
    intro b j hj he
    have hb := BitVec.eq_of_toNat_eq he
    have hz : (1#8 <<< j) = 0#8 := by
      have := congrArg (fun y => b ^^^ y) hb
      simpa [← BitVec.xor_assoc] using this
    interval_cases j <;> simp at hz
  have hn := hne (x.getD k 0) j hj
  have h1 := (x.getD k 0).isLt
  have h2 := (x.getD k 0 ^^^ (1#8 <<< j)).isLt
  omega

/-- The first covered byte after the header, and both checksum bytes. -/
theorem witness_OneFlippedBitFailsTheChecksum :
    (fresh cfgT .standard).unit 0 = some (Decoder.fresh .standard) ∧ SeparatesOneBit cfgT.ck ∧
    frameLength cfgT .standard [] < 256 ^ lengthWidth cfgT 2 ∧
    1 + lengthWidth cfgT 2 ≤ 2 ∧ 2 < (2 :: frameRest cfgT (lengthWidth cfgT 2) .standard 0 1 []).length ∧
    1 < 2 ∧ 7 < 8 := ⟨rfl, sum16_separates, by decide, by decide, by decide, by decide, by decide⟩

theorem witness_QueriesAnswerInEveryStatus : (one cfgT badUnit).unit 0 = some badUnit := rfl

theorem witness_FieldAccessorsFollowTheContract :
    (one cfgT goodUnit).unit 0 = some goodUnit ∧ goodUnit.complete = true ∧
    (one cfgT bodyUnit).unit 0 = some bodyUnit ∧ bodyUnit.complete = false := by decide

theorem witness_FailedUnitsAnswerZeroAndEmpty :
    (one cfgT badUnit).Inv ∧ (one cfgT badUnit).unit 0 = some badUnit ∧ badUnit.complete = true ∧
    badUnit.status ≠ some .valid := ⟨legal_one badUnit_legal, rfl, rfl, by decide⟩

theorem witness_AccessorsAreIdempotent : Instr.getData 0 ∈ accessors 0 := by decide

theorem witness_StepKeepsTheInvariants :
    State.Inv { one cfgT bodyUnit with pending := [.call (.isComplete 0)] } ∧
    step { one cfgT bodyUnit with pending := [.call (.isComplete 0)] } =
      .next ((one cfgT bodyUnit).returns (.bool false)) :=
  ⟨⟨(legal_one bodyUnit_legal).sorted, (legal_one bodyUnit_legal).units⟩, rfl⟩

theorem witness_EveryInstructionAnswersInLegalStates : (one cfgT goodUnit).Inv := legal_one goodUnit_legal

theorem witness_LegalStatesNeverReadOutside : (one cfgT bodyUnit).Inv := legal_one bodyUnit_legal

theorem witness_BuffersNeverOverflow :
    (one cfgT goodUnit).Inv ∧ (one cfgT goodUnit).unit 0 = some goodUnit := ⟨legal_one goodUnit_legal, rfl⟩

theorem witness_BodyEndsWithinTwiceTheMissingBytes :
    (one cfgT bodyUnit).Inv ∧ (one cfgT bodyUnit).unit 0 = some bodyUnit ∧ bodyUnit.complete = false ∧
    bodyUnit.target = some 9 ∧
    2 * (9 + 2 - bodyUnit.buf.length) ≤ (List.replicate 12 0 : List Byte).length :=
  ⟨legal_one bodyUnit_legal, rfl, rfl, rfl, by decide⟩

/-- The unit one byte before its header is known, and the one before its last byte. -/
def headerUnit : Decoder := { Decoder.fresh .standard with buf := [0x2B, 2, 6] }
def lastUnit : Decoder :=
  { Decoder.fresh .standard with buf := [0x2B, 2, 6, 0, 0, 0, 0x10, 0xAA, 0xBB, 1], target := some 9 }

theorem headerUnit_legal : headerUnit.Inv cfgT :=
  legal_of_loop (ft := .standard) (l := [0x2B, 2, 6]) (o := .returned headerUnit 3) (by decide) rfl
theorem lastUnit_legal : lastUnit.Inv cfgT :=
  legal_of_loop (ft := .standard) (l := [0x2B, 2, 6, 0, 0, 0, 0x10, 0xAA, 0xBB, 1]) (o := .returned lastUnit 10) (by decide) rfl

/-- SEEK, HEADER at its last byte, BODY before and at its last byte. -/
theorem witness_StatusTransitions :
    (one cfgT (Decoder.fresh .plant)).Inv ∧ (Decoder.fresh .plant).status = some .seek ∧
    (one cfgT headerUnit).Inv ∧ headerUnit.status = some .header ∧ headerUnit.buf.length = 3 ∧
    headerUnit.buf[1]? = some 2 ∧ headerUnit.buf[2]? = some 6 ∧ headerUnit.esc = false ∧
    (one cfgT bodyUnit).Inv ∧ bodyUnit.status = some .body ∧ bodyUnit.buf.length + 1 < 9 + 2 ∧
    (one cfgT lastUnit).Inv ∧ lastUnit.status = some .body ∧ lastUnit.target = some 9 ∧
    lastUnit.buf.length + 1 = 9 + 2 ∧ lastUnit.buf[1]? = some 2 ∧ lastUnit.complete = false :=
  ⟨legal_one (fresh_inv _ _), rfl, legal_one headerUnit_legal, rfl, rfl, rfl, rfl, rfl,
    legal_one bodyUnit_legal, rfl, by decide, legal_one lastUnit_legal, rfl, rfl, rfl, rfl, rfl⟩

end Sys2Proof.Tests
end

section
/-! PROOFS. Escape logic (40_escape.md): the equations of `STUFF` and of the unstuffing flag over a byte
sequence, and from them the length law (R103), the inverse law (R107) and non-canonical escapes (R108). -/

namespace Sys2Proof.Proofs.Escape

open Sys2Proof Sys2Proof.Machine

/-! ### Stuffing, one byte at a time (R101) -/

@[simp] theorem stuff_nil (cfg : Cfg) : stuff cfg [] = [] := rfl

theorem stuff_cons_of_reserved {cfg : Cfg} {b : Byte} (hb : b = cfg.start ∨ b = cfg.esc) (s : List Byte) :
    stuff cfg (b :: s) = cfg.esc :: b :: stuff cfg s := by
  rw [stuff, if_pos (isReserved_eq_true.mpr hb)]

theorem stuff_cons_of_not_reserved {cfg : Cfg} {b : Byte} (hb : ¬ (b = cfg.start ∨ b = cfg.esc))
    (s : List Byte) : stuff cfg (b :: s) = b :: stuff cfg s := by
  rw [stuff, if_neg (mt isReserved_eq_true.mp hb)]

/-! ### Unstuffing, one byte at a time (R104) -/

@[simp] theorem unstuffAll_nil (cfg : Cfg) (e : Bool) : unstuffAll cfg e [] = (e, []) := rfl

/-- An escape token at a clear flag is dropped and sets the flag. -/
@[simp] theorem unstuffAll_esc_cons (cfg : Cfg) (t : List Byte) :
    unstuffAll cfg false (cfg.esc :: t) = unstuffAll cfg true t := by
  simp [unstuffAll, unstuff1_eq]

/-- Every other byte, and every byte at a set flag, is appended and leaves the flag clear. -/
theorem unstuffAll_cons_of_append {cfg : Cfg} {e : Bool} {b : Byte} (h : e = true ∨ b ≠ cfg.esc)
    (t : List Byte) :
    unstuffAll cfg e (b :: t) = ((unstuffAll cfg false t).1, b :: (unstuffAll cfg false t).2) := by
  have hn : ¬ (e = false ∧ b = cfg.esc) := by
    rintro ⟨rfl, rfl⟩
    simp at h
  simp [unstuffAll, unstuff1_eq, hn]

@[simp] theorem unstuffAll_true_cons (cfg : Cfg) (b : Byte) (t : List Byte) :
    unstuffAll cfg true (b :: t) = ((unstuffAll cfg false t).1, b :: (unstuffAll cfg false t).2) :=
  unstuffAll_cons_of_append (.inl rfl) t

/-- A byte other than the escape token is appended alike with an escape before it and without (R108). -/
theorem unstuffAll_needless_esc {cfg : Cfg} {x : Byte} (hx : x ≠ cfg.esc) (t : List Byte) :
    unstuffAll cfg false (cfg.esc :: x :: t) = unstuffAll cfg false (x :: t) := by
  rw [unstuffAll_esc_cons, unstuffAll_true_cons, unstuffAll_cons_of_append (.inr hx)]

/-! ### The laws -/

/-- R103: one more byte on the wire for every reserved byte. -/
theorem stuff_length (cfg : Cfg) (s : List Byte) :
    (stuff cfg s).length = s.length + (s.filter fun b => b = cfg.start ∨ b = cfg.esc).length := by
  induction s with
  | nil => rfl
  | cons b s ih =>
    by_cases hb : b = cfg.start ∨ b = cfg.esc
    · rw [stuff_cons_of_reserved hb, List.filter_cons_of_pos (by simpa using hb)]
      simp only [List.length_cons, ih]
      omega
    · rw [stuff_cons_of_not_reserved hb, List.filter_cons_of_neg (by simpa using hb)]
      simp only [List.length_cons, ih]
      omega

/-- R107, by induction: the flag is clear again after the wire bytes of each byte of `s`. -/
theorem unstuffAll_stuff (cfg : Cfg) (s : List Byte) : unstuffAll cfg false (stuff cfg s) = (false, s) := by
  induction s with
  | nil => rfl
  | cons b s ih =>
    by_cases hb : b = cfg.start ∨ b = cfg.esc
    · rw [stuff_cons_of_reserved hb, unstuffAll_esc_cons, unstuffAll_true_cons, ih]
    · have hne : b ≠ cfg.esc := fun h => hb (.inr h)
      rw [stuff_cons_of_not_reserved hb, unstuffAll_cons_of_append (.inr hne), ih]

/-- R108: wherever stuffed bytes are cut with the flag clear before an escape, the escape was inserted by
`STUFF`, so the byte after it is reserved. The bytes `a` before the cut are followed along the bytes of `s`;
they cannot end between an inserted escape and its byte, where the flag is set. -/
theorem reserved_of_stuff_eq {cfg : Cfg} {x : Byte} {b : List Byte} (s a : List Byte)
    (hs : stuff cfg s = a ++ cfg.esc :: x :: b) (ha : (unstuffAll cfg false a).1 = false) :
    x = cfg.start ∨ x = cfg.esc := by
  induction s generalizing a with
  | nil => simp at hs
  | cons c s ih =>
    by_cases hc : c = cfg.start ∨ c = cfg.esc
    · rw [stuff_cons_of_reserved hc] at hs
      match a with
      | [] =>
        obtain ⟨rfl, -⟩ : c = x ∧ stuff cfg s = b := by simpa using hs
        exact hc
      | [y] =>
        obtain ⟨rfl, -⟩ : cfg.esc = y ∧ c :: stuff cfg s = cfg.esc :: x :: b := by simpa using hs
        simp at ha
      | y :: z :: a =>
        obtain ⟨rfl, rfl, hrest⟩ : cfg.esc = y ∧ c = z ∧ stuff cfg s = a ++ cfg.esc :: x :: b := by
          simpa using hs
        exact ih a hrest (by simpa using ha)
    · have hne : c ≠ cfg.esc := fun h => hc (.inr h)
      rw [stuff_cons_of_not_reserved hc] at hs
      match a with
      | [] => exact absurd (List.cons.inj hs).1 hne
      | y :: a =>
        obtain ⟨rfl, hrest⟩ : c = y ∧ stuff cfg s = a ++ cfg.esc :: x :: b := by simpa using hs
        exact ih a hrest (by simpa [unstuffAll_cons_of_append (.inr hne)] using ha)

/-! ### The obligations -/

/-- Settles O7: the bounds follow from the length law, since at most every byte of `s` is reserved. -/
theorem stuffLengthLaw : Obligations.StuffLengthLaw := by
  intro cfg s
  have hlen := stuff_length cfg s
  have hle := List.length_filter_le (fun b => decide (b = cfg.start ∨ b = cfg.esc)) s
  exact ⟨hlen, by omega, by omega⟩

/-- Settles O8, by induction on the bytes that are stuffed. -/
theorem unstuffInvertsStuff : Obligations.UnstuffInvertsStuff :=
  unstuffAll_stuff

/-- Settles O9: the first clause by the unstuffing step, the second by induction on the stuffed bytes. -/
theorem needlessEscapeIsAccepted : Obligations.NeedlessEscapeIsAccepted :=
  ⟨fun _ _ t _ hx => unstuffAll_needless_esc hx t, fun _ s a _ _ => reserved_of_stuff_eq s a⟩

end Sys2Proof.Proofs.Escape
end

section
/-! PROOFS. The encoder (42_encoder.md): which bytes are known and how wide their length field is, the
operands of ENC in the words of the statements, the three outcomes of ENC, and from them the encode rules
R126, R134 to R140 and R142. -/

namespace Sys2Proof.Proofs.Encoder

open Sys2Proof Sys2Proof.Machine

/-! ### The command byte (R9) -/

theorem isKnown_of_named {cfg : Cfg} {c : Byte} (h : c ∈ cfg.named) : isKnown cfg c = true := by
  simp [isKnown, h]

theorem isKnown_of_extra {cfg : Cfg} {c : Byte} (h : c ∈ cfg.cmdExtra) : isKnown cfg c = true := by
  simp [isKnown, h]

theorem mem_named {cfg : Cfg} {c : Byte} :
    c ∈ cfg.named ↔ c = cfg.cmdRead ∨ c = cfg.cmdWrite ∨ c = cfg.cmdLongWrite ∨ c = cfg.cmdResponse ∨
      c = cfg.cmdLongResponse := by
  simp [Params.named]

/-- The sentinel is outside KNOWN (R7). -/
theorem isKnown_cmdNone (cfg : Cfg) : isKnown cfg cfg.cmdNone = false := by
  obtain ⟨-, -, -, -, hnamed, hextra, -⟩ := cfg.valid
  simp [isKnown, hnamed, hextra]

/-- A member of CMD_EXTRA is none of the five named codes (R7). -/
theorem extra_not_named {cfg : Cfg} {c : Byte} (h : c ∈ cfg.cmdExtra) : c ∉ cfg.named := by
  obtain ⟨-, -, -, hextra, -⟩ := cfg.valid
  exact hextra c h

/-- What the encoder needs of the five named codes being five different bytes (R7). -/
theorem named_ne (cfg : Cfg) :
    (cfg.cmdWrite ≠ cfg.cmdRead ∧ cfg.cmdLongWrite ≠ cfg.cmdRead ∧ cfg.cmdResponse ≠ cfg.cmdRead ∧
      cfg.cmdLongResponse ≠ cfg.cmdRead) ∧
    (cfg.cmdWrite ≠ cfg.cmdLongWrite ∧ cfg.cmdWrite ≠ cfg.cmdLongResponse) ∧
    (cfg.cmdResponse ≠ cfg.cmdLongWrite ∧ cfg.cmdResponse ≠ cfg.cmdLongResponse) := by
  obtain ⟨-, hnodup, -⟩ := cfg.valid
  simp only [Params.named, List.nodup_cons, List.mem_cons, not_or] at hnodup
  obtain ⟨⟨hrw, hrlw, hrr, hrlr, -⟩, ⟨hwlw, -, hwlr, -⟩, ⟨hlwr, -, -⟩, ⟨hrlr', -⟩, -⟩ := hnodup
  exact ⟨⟨Ne.symm hrw, Ne.symm hrlw, Ne.symm hrr, Ne.symm hrlr⟩, ⟨hwlw, hwlr⟩, Ne.symm hlwr, hrlr'⟩

theorem lengthWidth_long {cfg : Cfg} {c : Byte} (h : c = cfg.cmdLongWrite ∨ c = cfg.cmdLongResponse) :
    lengthWidth cfg c = 2 := by
  simp [lengthWidth, isLong, h]

theorem lengthWidth_short {cfg : Cfg} {c : Byte} (hw : c ≠ cfg.cmdLongWrite)
    (hr : c ≠ cfg.cmdLongResponse) : lengthWidth cfg c = 1 := by
  simp [lengthWidth, isLong, hw, hr]

theorem effPayload_read (cfg : Cfg) (a : EncOperands) : effPayload cfg cfg.cmdRead a = [] := by
  simp [effPayload]

theorem effPayload_of_ne_read {cfg : Cfg} {c : Byte} (h : c ≠ cfg.cmdRead) (a : EncOperands) :
    effPayload cfg c a = a.payload := by
  simp [effPayload, h]

/-- `c` is the code of a command that carries its payload (R127) behind `W` length bytes (R74). -/
structure Carries (cfg : Cfg) (c : Byte) (W : Nat) : Prop where
  known : isKnown cfg c = true
  width : lengthWidth cfg c = W
  not_read : c ≠ cfg.cmdRead

theorem carries_write (cfg : Cfg) : Carries cfg cfg.cmdWrite 1 := by
  obtain ⟨⟨hread, -⟩, ⟨hlw, hlr⟩, -⟩ := named_ne cfg
  exact ⟨isKnown_of_named (by simp [mem_named]), lengthWidth_short hlw hlr, hread⟩

theorem carries_response (cfg : Cfg) : Carries cfg cfg.cmdResponse 1 := by
  obtain ⟨⟨-, -, hread, -⟩, -, hlw, hlr⟩ := named_ne cfg
  exact ⟨isKnown_of_named (by simp [mem_named]), lengthWidth_short hlw hlr, hread⟩

theorem carries_extra {cfg : Cfg} {c : Byte} (h : c ∈ cfg.cmdExtra) : Carries cfg c 1 := by
  have hn := extra_not_named h
  simp only [mem_named, not_or] at hn
  obtain ⟨hread, -, hlw, -, hlr⟩ := hn
  exact ⟨isKnown_of_extra h, lengthWidth_short hlw hlr, hread⟩

theorem carries_longWrite (cfg : Cfg) : Carries cfg cfg.cmdLongWrite 2 := by
  obtain ⟨⟨-, hread, -⟩, -⟩ := named_ne cfg
  exact ⟨isKnown_of_named (by simp [mem_named]), lengthWidth_long (.inl rfl), hread⟩

theorem carries_longResponse (cfg : Cfg) : Carries cfg cfg.cmdLongResponse 2 := by
  obtain ⟨⟨-, -, -, hread⟩, -⟩ := named_ne cfg
  exact ⟨isKnown_of_named (by simp [mem_named]), lengthWidth_long (.inr rfl), hread⟩

theorem lengthWidth_read (cfg : Cfg) : lengthWidth cfg cfg.cmdRead = 1 := by
  obtain ⟨⟨-, hlw, -, hlr⟩, -⟩ := named_ne cfg
  exact lengthWidth_short hlw.symm hlr.symm

/-! ### The operands of ENC in the words of the statements (R128 to R131) -/

@[simp] theorem addressBytes_length (ft : FrameType) (addr : Word) :
    (addressBytes ft addr).length = addrSize ft := by
  cases ft <;> simp [addressBytes, addrSize]

/-- The effective address reaches the wire exactly where the given one does. -/
theorem addrField_effAddr (a : EncOperands) : addrField a.ft (effAddr a) = addressBytes a.ft a.addr := by
  cases h : a.ft <;> simp [addrField, addressBytes, effAddr, h]

theorem frameBody_effAddr (a : EncOperands) (payload : List Byte) :
    frameBody a.ft (effAddr a) a.id payload = addressBytes a.ft a.addr ++ be 4 a.id.toNat ++ payload := by
  rw [frameBody, addrField_effAddr]

theorem encLength_eq_frameLength (cfg : Cfg) (cmd : Byte) (a : EncOperands) :
    encLength cfg cmd a = frameLength cfg a.ft (effPayload cfg cmd a) :=
  encLength_eq cfg cmd a

theorem encBuffer_eq_frameRest (cfg : Cfg) (cmd : Byte) (a : EncOperands) :
    encBuffer cfg cmd a =
      cmd :: frameRest cfg (lengthWidth cfg cmd) a.ft a.addr a.id (effPayload cfg cmd a) := by
  simp [encBuffer, preBuffer, frameRest, frameBody_effAddr, encLength_eq_frameLength]

/-! ### The three outcomes of ENC (R126, R130, R133) -/

section Outcomes

variable {s : State} {cmd : Byte} {W : Nat} {P : List Byte} {a : EncOperands}

/-- A byte outside KNOWN is refused, whatever the other operands are. -/
theorem encAt_unknown (hk : isKnown s.cfg cmd = false) :
    encAt s cmd a = .next (s.refuses (.encBadCommand cmd)) := by
  rw [encAt_eq, encodeFrame_eq, if_neg (by simp [hk])]

/-- A declared length that fits gives the wire form of the frame. -/
theorem encAt_fits (hk : isKnown s.cfg cmd = true) (hW : lengthWidth s.cfg cmd = W)
    (hP : effPayload s.cfg cmd a = P) (hL : frameLength s.cfg a.ft P < 256 ^ W) :
    encAt s cmd a = .next (s.returns (.wire (s.cfg.start :: stuff s.cfg
      (cmd :: frameRest s.cfg W a.ft a.addr a.id P ++
        checksumField s.cfg (cmd :: frameRest s.cfg W a.ft a.addr a.id P))))) := by
  subst hW hP
  rw [encAt_eq, encodeFrame_ok.mpr ⟨hk, by rwa [encLength_eq_frameLength], rfl⟩,
    encBuffer_eq_frameRest]
  rfl

/-- A declared length that does not fit is refused. -/
theorem encAt_overflow (hk : isKnown s.cfg cmd = true) (hW : lengthWidth s.cfg cmd = W)
    (hP : effPayload s.cfg cmd a = P) (hL : 256 ^ W ≤ frameLength s.cfg a.ft P) :
    encAt s cmd a = .next (s.refuses (.encLengthOverflow (frameLength s.cfg a.ft P) W)) := by
  subst hW hP
  rw [encAt_eq, encodeFrame_eq, if_pos hk, encLength_eq_frameLength, if_pos hL]

/-- A command with one length byte that carries its payload (R136, R138, R140). -/
theorem sendsShort_of_carries {i : Instr} (hc : Carries s.cfg cmd 1) (hi : exec i s = encAt s cmd a) :
    SendsShort s i cmd a :=
  ⟨fun hL => hi.trans (encAt_fits hc.known hc.width (effPayload_of_ne_read hc.not_read a) (by omega)),
    fun hL => hi.trans (encAt_overflow hc.known hc.width (effPayload_of_ne_read hc.not_read a) (by omega))⟩

/-- A command with two length bytes that carries its payload (R137, R139). -/
theorem sendsLong_of_carries {i : Instr} (hc : Carries s.cfg cmd 2) (hi : exec i s = encAt s cmd a) :
    SendsLong s i cmd a :=
  ⟨fun hL => hi.trans (encAt_fits hc.known hc.width (effPayload_of_ne_read hc.not_read a) (by omega)),
    fun hL => hi.trans (encAt_overflow hc.known hc.width (effPayload_of_ne_read hc.not_read a) (by omega))⟩

end Outcomes

/-- The pre-stuffing buffer of a read-request (R135): nothing after the object id. -/
theorem frameRest_nil (cfg : Cfg) (c : Byte) (ft : FrameType) (addr id : Word) :
    c :: frameRest cfg 1 ft addr id [] =
      [c, BitVec.ofNat 8 (ftValue cfg ft + addrSize ft + 4)] ++ addressBytes ft addr ++
        be 4 id.toNat := by
  simp [frameRest, frameLength, be]

/-! ### What ENC reads (R134) -/

/-- The answer of ENC, a function of the configuration and the operands. -/
def encReply (cfg : Cfg) (cmd : Byte) (a : EncOperands) : Reply :=
  match encodeFrame cfg cmd a with
  | .ok w => .returned (.wire w)
  | .error e => .refused e

theorem encAt_eq_encReply (s : State) (cmd : Byte) (a : EncOperands) :
    encAt s cmd a = .next { s with reply := encReply s.cfg cmd a } := by
  rw [encAt_eq, encReply]
  cases encodeFrame s.cfg cmd a <;> rfl

theorem encReply_congr {cfg : Cfg} {cmd : Byte} {a b : EncOperands} (hid : a.id = b.id)
    (hft : a.ft = b.ft) (hp : effPayload cfg cmd a = effPayload cfg cmd b) (ha : effAddr a = effAddr b) :
    encReply cfg cmd a = encReply cfg cmd b := by
  simp only [encReply, encodeFrame, hid, hft, hp, ha]

/-! ### START in the wire form (R142) -/

/-- In stuffed bytes a START never comes first, and the byte before it is an ESC. -/
theorem esc_before_start_of_stuff {cfg : Cfg} (s : List Byte) (k : Nat)
    (hk : (stuff cfg s)[k]? = some cfg.start) : ∃ j, k = j + 1 ∧ (stuff cfg s)[j]? = some cfg.esc := by
  induction s generalizing k with
  | nil => simp at hk
  | cons b s ih =>
    by_cases hb : b = cfg.start ∨ b = cfg.esc
    · rw [Escape.stuff_cons_of_reserved hb] at hk ⊢
      match k with
      | 0 =>
        have hne : cfg.start ≠ cfg.esc := cfg.valid.1
        exact absurd (Option.some.inj hk).symm hne
      | 1 => exact ⟨0, rfl, rfl⟩
      | k + 2 =>
        obtain ⟨j, rfl, hj⟩ := ih k (by simpa using hk)
        exact ⟨j + 2, rfl, by simpa using hj⟩
    · rw [Escape.stuff_cons_of_not_reserved hb] at hk ⊢
      match k with
      | 0 => exact absurd (.inl (Option.some.inj hk)) hb
      | k + 1 =>
        obtain ⟨j, rfl, hj⟩ := ih k (by simpa using hk)
        exact ⟨j + 1, rfl, by simpa using hj⟩

/-- A fresh unit given START alone holds it as its first buffer byte (R149). -/
theorem consumeAt_fresh_start {s : State} {u : Nat} {ft : FrameType}
    (hu : s.unit u = some (Decoder.fresh ft)) :
    consumeAt s u [s.cfg.start] =
      .next ((s.setUnit u { Decoder.fresh ft with buf := [s.cfg.start] }).returns (.count 1)) := by
  rw [consumeAt_eq hu rfl, consumeLoop_cons, dstep_seek rfl, if_pos rfl]
  rfl

/-! ### The obligations -/

/-- Settles O12: the sentinel is outside KNOWN by rule R7, a well-formed any_other_byte by its form. -/
theorem encRefusesUnknownCommands : Obligations.EncRefusesUnknownCommands := by
  intro s a
  refine ⟨fun cmd hk => encAt_unknown hk, encAt_unknown (isKnown_cmdNone s.cfg), fun b hwf => ?_⟩
  have hk : isKnown s.cfg b = false := by
    simp only [Instr.wf, otherIsUnassigned, Bool.and_eq_true, Bool.not_eq_true'] at hwf
    obtain ⟨-, hk, -⟩ := hwf
    exact hk
  exact encAt_unknown hk

/-- Settles O13: the effective payload of a read-request is empty (R127). -/
theorem readSendReturnsItsFrame : Obligations.ReadSendReturnsItsFrame := by
  intro s a L pre
  have hk : isKnown s.cfg s.cfg.cmdRead = true := isKnown_of_named (by simp [mem_named])
  have hW := lengthWidth_read s.cfg
  have hP := effPayload_read s.cfg a
  have hpre : s.cfg.cmdRead :: frameRest s.cfg 1 a.ft a.addr a.id [] = pre := frameRest_nil ..
  have hlen : frameLength s.cfg a.ft [] = L := rfl
  have hexec : exec (.read (.send a)) s = encAt s s.cfg.cmdRead a := rfl
  refine ⟨fun hL => ?_, fun hL => ?_, fun hft => ?_⟩
  · rw [hexec, encAt_fits hk hW hP (by omega), hpre]
  · rw [hexec, encAt_overflow hk hW hP (by omega), hlen]
  · simp [L, hft, ftValue, addrSize]

/-- Settles O14, from the one-byte outcomes of ENC for a code that carries its payload. -/
theorem shortCommandsSendReturnTheirFrame : Obligations.ShortCommandsSendReturnTheirFrame := fun s _ =>
  ⟨sendsShort_of_carries (carries_write s.cfg) rfl, sendsShort_of_carries (carries_response s.cfg) rfl,
    fun _ hx => sendsShort_of_carries (carries_extra hx) rfl⟩

/-- Settles O15, from the two-byte outcomes of ENC for a code that carries its payload. -/
theorem longCommandsSendReturnTheirFrame : Obligations.LongCommandsSendReturnTheirFrame := fun s _ =>
  ⟨sendsLong_of_carries (carries_longWrite s.cfg) rfl,
    sendsLong_of_carries (carries_longResponse s.cfg) rfl⟩

/-- Settles O16: the answer is a function of the effective operands, which the premises make equal. -/
theorem encOutputDependsOnlyOnEffectiveOperands :
    Obligations.EncOutputDependsOnlyOnEffectiveOperands := by
  intro s t cmd a b hcfg hid hft hpayload haddr
  have hp : effPayload s.cfg cmd a = effPayload s.cfg cmd b := by
    rcases hpayload with rfl | h
    · rw [effPayload_read, effPayload_read]
    · simp only [effPayload, h]
  have ha : effAddr a = effAddr b := by
    rcases haddr with h | h
    · simp only [effAddr, ← hft, h]
    · simp only [effAddr, hft, h]
  refine ⟨encReply s.cfg cmd a, encAt_eq_encReply s cmd a, ?_⟩
  rw [encReply_congr hid hft hp ha, hcfg]
  exact encAt_eq_encReply t cmd b

/-- Settles O17: what ENC returned is START and stuffed bytes, where a START follows an ESC. -/
theorem wireFormHoldsNoBareStart : Obligations.WireFormHoldsNoBareStart := by
  intro s t cmd a w henc hw
  obtain ⟨hok, -⟩ := encAt_returned henc hw
  obtain ⟨-, -, rfl⟩ := encodeFrame_ok.mp hok
  refine ⟨rfl, fun k hk => ?_, fun u ft hu => consumeAt_fresh_start hu⟩
  obtain ⟨j, rfl, hj⟩ := esc_before_start_of_stuff _ k hk
  exact hj

end Sys2Proof.Proofs.Encoder
end

section
/-! PROOFS. The round trip of a frame (R141): a fresh unit that takes the wire form of a known command's
frame commits exactly the fields the frame was built from. -/

namespace Sys2Proof.Proofs.RoundTrip

open Sys2Proof Sys2Proof.Machine Sys2Proof.Proofs.Encoder

/-- The address bytes of a frame read back as the address it shows (R77). -/
theorem ube_addressBytes (ft : FrameType) (addr : Word) :
    BitVec.ofNat 32 (ube (addressBytes ft addr)) = shownAddress ft addr := by
  cases ft
  · rfl
  · simp [addressBytes, shownAddress]

/-- The bytes a frame declares (R129): address, object id, payload. -/
def bodyBytes (ft : FrameType) (addr id : Word) (payload : List Byte) : List Byte :=
  addressBytes ft addr ++ be 4 id.toNat ++ payload

@[simp] theorem bodyBytes_length (ft : FrameType) (addr id : Word) (payload : List Byte) :
    (bodyBytes ft addr id payload).length = addrSize ft + 4 + payload.length := by
  simp [bodyBytes]; omega

theorem frameRest_eq_bodyBytes (cfg : Cfg) (W : Nat) (ft : FrameType) (addr id : Word)
    (payload : List Byte) :
    frameRest cfg W ft addr id payload =
      be W (frameLength cfg ft payload) ++ bodyBytes ft addr id payload := by
  simp [frameRest, bodyBytes]

/-- The declared length counts the body and the frame-type value (R75). -/
theorem frameLength_eq_bodyBytes (cfg : Cfg) (ft : FrameType) (addr id : Word) (payload : List Byte) :
    frameLength cfg ft payload = ftValue cfg ft + (bodyBytes ft addr id payload).length := by
  simp [frameLength]; omega

/-- The commit (R175, R176) of a unit that holds a frame: the registers are the frame's own fields. -/
theorem committed_frame (cfg : Cfg) (ft : FrameType) (c : Byte) (addr id : Word) (payload : List Byte)
    (rx : Half) :
    let fr := c :: frameRest cfg (lengthWidth cfg c) ft addr id payload ++ be 2 rx.toNat
    committed cfg (Decoder.holding cfg ft fr) c =
      validUnit ft (cfg.start :: fr) (addrSize ft + 4 + payload.length + lengthWidth cfg c + 2) c
        (shownAddress ft addr) id payload := by
  intro fr
  have hbuf : cfg.start :: fr = (cfg.start :: c :: be (lengthWidth cfg c) (frameLength cfg ft payload)) ++
      (addressBytes ft addr ++ (be 4 id.toNat ++ (payload ++ be 2 rx.toNat))) := by
    simp [fr, frameRest]
  have hlen : (cfg.start :: fr).length =
      2 + lengthWidth cfg c + addrSize ft + 4 + payload.length + 2 := by
    rw [hbuf]; simp; omega
  have hbody : (cfg.start :: fr).drop (2 + lengthWidth cfg c) =
      addressBytes ft addr ++ (be 4 id.toNat ++ (payload ++ be 2 rx.toNat)) := by
    rw [hbuf, List.drop_left' (by simp; omega)]
  have hafterAddr : (cfg.start :: fr).drop (2 + lengthWidth cfg c + addrSize ft) =
      be 4 id.toNat ++ (payload ++ be 2 rx.toNat) := by
    rw [← List.drop_drop, hbody, List.drop_left' (by simp)]
  have hafterId : (cfg.start :: fr).drop (2 + lengthWidth cfg c + addrSize ft + 4) =
      payload ++ be 2 rx.toNat := by
    rw [← List.drop_drop, hafterAddr, List.drop_left' (by simp)]
  have haddr : ((cfg.start :: fr).drop (2 + lengthWidth cfg c)).take (addrSize ft) =
      addressBytes ft addr := by
    rw [hbody, List.take_left' (by simp)]
  have hid : ((cfg.start :: fr).drop (2 + lengthWidth cfg c + addrSize ft)).take 4 = be 4 id.toNat := by
    rw [hafterAddr, List.take_left' (by simp)]
  have hdata : ((cfg.start :: fr).drop (2 + lengthWidth cfg c + addrSize ft + 4)).take
      ((cfg.start :: fr).length - 2 - (2 + lengthWidth cfg c + addrSize ft + 4)) = payload := by
    rw [hafterId, List.take_left' (by omega)]
  have htarget : fr.length - 1 = addrSize ft + 4 + payload.length + lengthWidth cfg c + 2 := by
    rw [List.length_cons] at hlen; omega
  simp only [committed, Decoder.holding, Decoder.fresh, validUnit, haddr, hid, hdata, htarget,
    ube_addressBytes, ube_be_word, BitVec.ofNat_toNat, BitVec.setWidth_eq]

/-- The frame of a known command with its own checksum, at a fresh unit: CONSUME takes the whole wire form
and the unit is valid with the frame's fields; what follows is left alone (R156). -/
theorem consumeLoop_validFrame {cfg : Cfg} {ft : FrameType} {c : Byte} (addr id : Word)
    {payload : List Byte} (hk : isKnown cfg c = true)
    (hL : frameLength cfg ft payload < 256 ^ lengthWidth cfg c) (l : List Byte) (i : Nat) :
    let pre := c :: frameRest cfg (lengthWidth cfg c) ft addr id payload
    consumeLoop cfg (Decoder.fresh ft) (wireForm cfg (withChecksum cfg pre) ++ l) i =
      some (.returned
        (validUnit ft (cfg.start :: withChecksum cfg pre)
          (addrSize ft + 4 + payload.length + lengthWidth cfg c + 2) c (shownAddress ft addr) id payload)
        (i + (wireForm cfg (withChecksum cfg pre)).length)) := by
  intro pre
  have hpre : pre = c :: (be (lengthWidth cfg c) (ftValue cfg ft + (bodyBytes ft addr id payload).length) ++
      bodyBytes ft addr id payload) := by
    simp only [pre, frameRest_eq_bodyBytes, ← frameLength_eq_bodyBytes]
  have hloop := consumeLoop_frame (cfg := cfg) (ft := ft) (c := c) (rest := bodyBytes ft addr id payload)
    (rx := checksum cfg.ck pre) (by rwa [← frameLength_eq_bodyBytes]) l i
  have hlong : ¬ (bodyBytes ft addr id payload).length < addrSize ft + 4 := by simp
  have hcommit : committed cfg (Decoder.holding cfg ft (withChecksum cfg pre)) c = _ :=
    committed_frame cfg ft c addr id payload (checksum cfg.ck pre)
  simp only [← hpre, if_true, hk, if_neg hlong, loopNext_doneOk] at hloop
  rw [← withChecksum, hcommit] at hloop
  exact hloop

/-- Settles O31: what ENC returned is the frame of its effective operands, which a fresh unit decodes. -/
theorem encodedFrameDecodesBack : Obligations.EncodedFrameDecodesBack := by
  intro s t u cmd a w henc hw hu
  obtain ⟨hok, -⟩ := encAt_returned henc hw
  obtain ⟨hk, hL, rfl⟩ := encodeFrame_ok.mp hok
  rw [encLength_eq_frameLength] at hL
  have hloop := consumeLoop_validFrame a.addr a.id hk hL [] 0
  simp only [List.append_nil, Nat.zero_add, ← encBuffer_eq_frameRest] at hloop
  have hexec := consumeAt_eq hu rfl (wireForm s.cfg (withChecksum s.cfg (encBuffer s.cfg cmd a)))
  rw [hloop] at hexec
  exact ⟨_, hexec, rfl, rfl, rfl, rfl, rfl, rfl, rfl⟩

end Sys2Proof.Proofs.RoundTrip
end

section
/-! PROOFS. What an instruction can do to the units: feed one of them, renew one of them, or answer without
touching any; from it, that a complete unit is left only by NEW (R147, R213). -/

namespace Sys2Proof.Proofs.Effects

open Sys2Proof Sys2Proof.Machine Sys2Proof.Proofs.Encoder

/-- The three things an instruction can do in a state: it is the CONSUME of a chunk at the unit it feeds
(D1, R70), it is a NEW (R145), or it feeds no unit and answers through the reply alone (R20, R57). -/
inductive Effect (s : State) (i : Instr) : Prop
  | feed (v : Nat) (chunk : List Byte) (hfeeds : ∀ u, feeds u i ↔ v = u)
      (hexec : exec i s = consumeAt s v chunk)
  | renew (v : Nat) (ft : FrameType) (hi : i = .new v ft)
  | answer (r : Reply) (hfeeds : ∀ u, ¬ feeds u i) (hexec : exec i s = .next { s with reply := r })

section Ports

variable (s : State) (u : Nat)

theorem queryAt_answer (v : Decoder → Value) : ∃ r, queryAt s u v = .next { s with reply := r } := by
  cases hu : s.unit u with
  | none => exact ⟨.refused .noInstance, onUnit_none hu _⟩
  | some d => exact ⟨.returned (v d), queryAt_eq hu v⟩

theorem fieldAt_answer (v : Decoder → Value) : ∃ r, fieldAt s u v = .next { s with reply := r } := by
  cases hu : s.unit u with
  | none => exact ⟨.refused .noInstance, onUnit_none hu _⟩
  | some d =>
    rw [fieldAt_eq hu]
    cases d.complete with
    | true => exact ⟨.returned (v d), rfl⟩
    | false => exact ⟨.refused .notComplete, rfl⟩

end Ports

/-- An instruction that feeds no unit and answers through the reply alone. -/
theorem Effect.of_answer {s : State} {i : Instr} (hfeeds : ∀ u, ¬ feeds u i)
    (hexec : ∃ r, exec i s = .next { s with reply := r }) : Effect s i :=
  hexec.elim fun r h => .answer r hfeeds h

/-- A wire command answers as ENC when it is sent, and feeds the unit its frame arrives at. -/
theorem Effect.of_command {s : State} {i : Instr} {c : Byte} {f : CommandForm}
    (hfeeds : ∀ u, feeds u i ↔ formUnit f = some u) (hexec : exec i s = commandAt s c f) : Effect s i := by
  cases f with
  | send a =>
    have hnone : ∀ u, ¬ feeds u i := fun u h => by simpa [formUnit] using (hfeeds u).mp h
    exact .of_answer hnone ⟨_, hexec.trans (encAt_eq_encReply s c a)⟩
  | recv v body =>
    exact .feed v (wireForm s.cfg (c :: body)) (fun u => by simpa [formUnit] using hfeeds u) hexec

/-- Every instruction has one of the three effects, in every state. -/
theorem effect (s : State) (i : Instr) : Effect s i := by
  cases i with
  | read f => exact .of_command (fun _ => Iff.rfl) rfl
  | write f => exact .of_command (fun _ => Iff.rfl) rfl
  | longWrite f => exact .of_command (fun _ => Iff.rfl) rfl
  | response f => exact .of_command (fun _ => Iff.rfl) rfl
  | longResponse f => exact .of_command (fun _ => Iff.rfl) rfl
  | extra x f => exact .of_command (fun _ => Iff.rfl) rfl
  | sentinel f => exact .of_command (fun _ => Iff.rfl) rfl
  | otherByte b f => exact .of_command (fun _ => Iff.rfl) rfl
  | start v => exact .feed v [s.cfg.start] (fun _ => Iff.rfl) rfl
  | esc v => exact .feed v [s.cfg.esc] (fun _ => Iff.rfl) rfl
  | consume v chunk => exact .feed v chunk (fun _ => Iff.rfl) rfl
  | new v ft => exact .renew v ft rfl
  | enc cmd a => exact .of_answer (fun _ => id) ⟨_, encAt_eq_encReply s cmd a⟩
  | isComplete v => exact .of_answer (fun _ => id) (queryAt_answer s v _)
  | isValid v => exact .of_answer (fun _ => id) (queryAt_answer s v _)
  | getFrameType v => exact .of_answer (fun _ => id) (queryAt_answer s v _)
  | getId v => exact .of_answer (fun _ => id) (fieldAt_answer s v _)
  | getAddress v => exact .of_answer (fun _ => id) (fieldAt_answer s v _)
  | getData v => exact .of_answer (fun _ => id) (fieldAt_answer s v _)
  | getCommand v => exact .of_answer (fun _ => id) (fieldAt_answer s v _)

/-- A complete unit refuses every chunk, the empty one included (R147). -/
theorem consumeAt_complete {s : State} {u : Nat} {d : Decoder} (hu : s.unit u = some d)
    (hc : d.complete = true) (chunk : List Byte) : consumeAt s u chunk = .next (s.refuses .spent) := by
  simp [consumeAt, onUnit, hu, hc]

/-- CONSUME at one unit leaves every other unit as it is (R62). -/
theorem consumeAt_unit_ne {s t : State} {u v : Nat} {chunk : List Byte} (huv : u ≠ v)
    (h : consumeAt s v chunk = .next t) : t.unit u = s.unit u := by
  obtain ⟨-, rfl⟩ | ⟨d, -, ⟨-, rfl⟩ | ⟨-, ⟨d', n, -, rfl⟩ | ⟨d', e, -, rfl⟩⟩⟩ := consumeAt_next h
  · rfl
  · rfl
  · exact State.unit_setUnit_ne s huv d'
  · exact State.unit_setUnit_ne s huv d'

/-- NEW of one unit leaves every other unit as it is (R62). -/
theorem new_unit_ne {s t : State} {u v : Nat} {ft : FrameType} (huv : u ≠ v)
    (h : exec (.new v ft) s = .next t) : t.unit u = s.unit u := by
  obtain rfl : (s.setUnit v (Decoder.fresh ft)).returns .unit = t := Host.Outcome.next.inj h
  exact State.unit_setUnit_ne s huv _

/-- An instruction that neither feeds nor renews a unit leaves it as it is. -/
theorem exec_unit_of_not_feeds {s t : State} {u : Nat} {i : Instr} (hfeeds : ¬ feeds u i)
    (hrenews : ¬ renews u i) (h : exec i s = .next t) : t.unit u = s.unit u := by
  cases effect s i with
  | feed v chunk hf hexec =>
    have huv : u ≠ v := fun huv => hfeeds ((hf u).mpr huv.symm)
    exact consumeAt_unit_ne huv (hexec ▸ h)
  | renew v ft hi =>
    subst hi
    exact new_unit_ne (fun huv => hrenews huv.symm) h
  | answer r _ hexec =>
    obtain rfl : { s with reply := r } = t := Host.Outcome.next.inj (hexec ▸ h)
    rfl

/-- Every instruction that feeds a complete unit is refused with `Spent`. -/
theorem exec_spent_of_feeds {s : State} {u : Nat} {d : Decoder} {i : Instr} (hu : s.unit u = some d)
    (hc : d.complete = true) (hfeeds : feeds u i) : exec i s = .next (s.refuses .spent) := by
  cases effect s i with
  | feed v chunk hf hexec =>
    obtain rfl := (hf u).mp hfeeds
    rw [hexec, consumeAt_complete hu hc]
  | renew v ft hi =>
    subst hi
    exact hfeeds.elim
  | answer r hf _ => exact absurd hfeeds (hf u)

/-- Settles O22: what feeds the unit is refused, which keeps every unit; what neither feeds nor renews it
leaves it alone. -/
theorem terminalUnitLeftOnlyByNew : Obligations.TerminalUnitLeftOnlyByNew := by
  intro s u d i hu hc
  refine ⟨exec_spent_of_feeds hu hc, fun hrenews t ht => ?_⟩
  by_cases hfeeds : feeds u i
  · rw [exec_spent_of_feeds hu hc hfeeds] at ht
    obtain rfl := Host.Outcome.next.inj ht
    exact hu
  · rw [exec_unit_of_not_feeds hfeeds hrenews ht, hu]

end Sys2Proof.Proofs.Effects
end

section
/-! PROOFS. The answer of CONSUME as a function of its loop's outcome, and the per-byte rules for noise and
for the ESC token (R149 to R151). -/

namespace Sys2Proof.Proofs.Bytes

open Sys2Proof Sys2Proof.Machine

/-- The state in which CONSUME at unit `u` hands an outcome of its loop to the host (R146). -/
def answer (s : State) (u : Nat) : ConsumeOutcome → State
  | .returned d n => (s.setUnit u d).returns (.count n)
  | .raised d e => (s.setUnit u d).raises e

@[simp] theorem dec_returned (d : Decoder) (n : Nat) : (ConsumeOutcome.returned d n).dec = d := rfl

@[simp] theorem dec_raised (d : Decoder) (e : CodecError) : (ConsumeOutcome.raised d e).dec = d := rfl

@[simp] theorem answer_unit (s : State) (u : Nat) (o : ConsumeOutcome) :
    (answer s u o).unit u = some o.dec := by
  cases o <;> exact State.unit_setUnit_self ..

/-- The second of two answers at one unit replaces the first. -/
@[simp] theorem answer_answer (s : State) (u : Nat) (o o' : ConsumeOutcome) :
    answer (answer s u o) u o' = answer s u o' := by
  cases o <;> cases o' <;> simp [answer, State.setUnit, State.returns, State.raises]

section Consume

variable {s : State} {u : Nat} {d : Decoder}

/-- CONSUME at a unit that still takes bytes answers its loop's outcome (R146). -/
theorem consumeAt_of_loop {chunk : List Byte} {o : ConsumeOutcome} (hu : s.unit u = some d)
    (hc : d.complete = false) (ho : consumeLoop s.cfg d chunk 0 = some o) :
    consumeAt s u chunk = .next (answer s u o) := by
  rw [consumeAt_eq hu hc, ho]
  cases o <;> rfl

/-- A chunk of one byte after which the unit goes on is counted 1. -/
theorem consumeAt_byte {d' : Decoder} {b : Byte} (hu : s.unit u = some d) (hc : d.complete = false)
    (hstep : dstep s.cfg d b 1 = some (.more d')) :
    consumeAt s u [b] = .next ((s.setUnit u d').returns (.count 1)) :=
  consumeAt_of_loop (o := .returned d' 1) hu hc (by rw [consumeLoop_cons, hstep]; rfl)

end Consume

section Step

variable {cfg : Cfg} {d : Decoder}

theorem start_ne_esc (cfg : Cfg) : cfg.start ≠ cfg.esc := cfg.valid.1

/-- START at an empty buffer becomes its first entry; no flag is touched (R149). -/
theorem dstep_start (hb : d.buf = []) (i : Nat) :
    dstep cfg d cfg.start i = some (.more { d with buf := [cfg.start] }) := by
  rw [dstep_seek hb, if_pos rfl, Decoder.append, hb, List.nil_append]

/-- A byte that is not dropped, away from the fourth buffer byte and from the last of the frame, is
appended with `esc` cleared (R151, R155). -/
theorem dstep_append_more {b : Byte} (hb : d.buf ≠ []) (he : d.esc = true ∨ b ≠ cfg.esc)
    (h3 : d.buf.length ≠ 3) (ht : ∀ t, d.target = some t → d.buf.length + 1 ≠ t + 2) (i : Nat) :
    dstep cfg d b i = some (.more { d with buf := d.buf ++ [b], esc := false }) := by
  rw [dstep_append hb he, afterAppend_more i (by simpa using h3) (by simpa using ht)]
  rfl

/-- Noise and START leave exactly START in the buffer, and the bytes after it go on from there (R149). -/
theorem consumeLoop_noise_start {g : List Byte} (hb : d.buf = []) (hg : cfg.start ∉ g)
    (l : List Byte) :
    consumeLoop cfg d (g ++ cfg.start :: l) 0 =
      consumeLoop cfg { d with buf := [cfg.start] } l (g.length + 1) := by
  rw [consumeLoop_noise hb hg, consumeLoop_cons, dstep_start hb, loopNext_more, Nat.zero_add]

end Step

/-- Settles O24: noise is skipped by induction over it, START opens the buffer, and a second START is an
ordinary byte there, since it is not ESC. -/
theorem noiseIsDiscardedUntilStart : Obligations.NoiseIsDiscardedUntilStart := by
  intro s u d g hu hc hb hg
  refine ⟨?_, ?_, fun ht => ?_⟩
  · have hloop : consumeLoop s.cfg d g 0 = some (.returned d g.length) := by
      simpa using consumeLoop_noise hb hg [] 0
    exact consumeAt_of_loop hu hc hloop
  · exact consumeAt_of_loop (o := .returned _ (g.length + 1)) hu hc (consumeLoop_noise_start hb hg [])
  · have hsecond := dstep_append_more (cfg := s.cfg) (d := { d with buf := [s.cfg.start] })
      (b := s.cfg.start) (by simp) (.inr (start_ne_esc s.cfg)) (by simp) (by simp [ht]) (g.length + 2)
    refine consumeAt_of_loop (o := .returned _ (g.length + 2)) hu hc ?_
    rw [consumeLoop_noise_start hb hg, consumeLoop_cons, hsecond]
    rfl

/-- Settles O26, one rule of the per-byte step for each place the token arrives at. -/
theorem escTokenIsDroppedOrVerbatim : Obligations.EscTokenIsDroppedOrVerbatim := by
  intro s u d hu hc
  refine ⟨fun hb => ?_, fun hb he => ?_, fun hb he h3 ht => ?_⟩
  · have hnoise : dstep s.cfg d s.cfg.esc 1 = some (.more d) := by
      rw [dstep_seek hb, if_neg (start_ne_esc s.cfg).symm]
    exact consumeAt_byte hu hc hnoise
  · exact consumeAt_byte hu hc (dstep_esc hb he 1)
  · exact consumeAt_byte hu hc (dstep_append_more hb (.inl he) h3 ht 1)

end Sys2Proof.Proofs.Bytes
end

section
/-! PROOFS. The cursor and the chunks of CONSUME: the cursor reaches nothing but the counts (R158), a chunk
is its two parts one after the other (R159), and so noise before a frame only adds to the count (R160). -/

namespace Sys2Proof.Proofs.Chunking

open Sys2Proof Sys2Proof.Machine Sys2Proof.Proofs.Encoder Sys2Proof.Proofs.RoundTrip Sys2Proof.Proofs.Bytes

/-! ### The cursor (R158) -/

/-- A byte outcome with its count taken from `n` bytes earlier. -/
def laterByte (n : Nat) : ByteOutcome → ByteOutcome
  | .more d => .more d
  | .doneOk d => .doneOk d
  | .doneErr d e => .doneErr d (laterError n e)

/-- An outcome of the loop with its count taken from `n` bytes earlier. -/
def laterOutcome (n : Nat) : ConsumeOutcome → ConsumeOutcome
  | .returned d i => .returned d (n + i)
  | .raised d e => .raised d (laterError n e)

section Cursor

variable (cfg : Cfg) (d : Decoder) (n i : Nat)

theorem decodeFields_add (c : Byte) (L : Nat) :
    decodeFields cfg d c L (n + i) = (decodeFields cfg d c L i).map (laterByte n) := by
  unfold decodeFields
  split
  · rfl
  · simp [Option.map_bind, Function.comp_def, laterByte]

theorem decodeCommand_add :
    decodeCommand cfg d (n + i) = (decodeCommand cfg d i).map (laterByte n) := by
  unfold decodeCommand
  cases memRead d.buf 1 1 with
  | none => rfl
  | some c =>
    simp only [Option.bind_eq_bind, Option.bind_some]
    split
    · simp [Option.map_bind, decodeFields_add]
    · rfl

theorem decodeStep_add : decodeStep cfg d (n + i) = (decodeStep cfg d i).map (laterByte n) := by
  unfold decodeStep
  cases memRead d.buf (d.buf.length - 2) 2 with
  | none => rfl
  | some rx =>
    cases slice d.buf 1 (d.buf.length - 2) with
    | none => rfl
    | some covered =>
      simp only [Option.bind_eq_bind, Option.bind_some]
      split
      · exact decodeCommand_add ..
      · rfl

theorem completionCheck_add :
    completionCheck cfg d (n + i) = (completionCheck cfg d i).map (laterByte n) := by
  unfold completionCheck
  split
  · rfl
  · split
    · exact decodeStep_add ..
    · rfl

theorem afterAppend_add : afterAppend cfg d (n + i) = (afterAppend cfg d i).map (laterByte n) := by
  unfold afterAppend
  split
  · cases readHeader cfg d.buf with
    | none => rfl
    | some header =>
      simp only [Option.bind_eq_bind, Option.bind_some]
      split
      · rfl
      · exact completionCheck_add ..
  · exact completionCheck_add ..

/-- The cursor at which a byte arrives changes nothing but the count of the error it ends in. -/
theorem dstep_add (b : Byte) : dstep cfg d b (n + i) = (dstep cfg d b i).map (laterByte n) := by
  unfold dstep
  split
  · rfl
  · split
    · rfl
    · exact afterAppend_add ..

end Cursor

/-- The cursor at which a chunk begins changes nothing but the count (R158). -/
theorem consumeLoop_add (cfg : Cfg) (n : Nat) (l : List Byte) (d : Decoder) (i : Nat) :
    consumeLoop cfg d l (n + i) = (consumeLoop cfg d l i).map (laterOutcome n) := by
  induction l generalizing d i with
  | nil => rfl
  | cons b l ih =>
    rw [consumeLoop_cons, consumeLoop_cons, Nat.add_assoc, dstep_add]
    rcases dstep cfg d b (i + 1) with _ | ⟨d' | d' | ⟨d', e⟩⟩
    · rfl
    · exact ih d' (i + 1)
    · rfl
    · rfl

/-- What the host sees of an outcome with its count taken from `n` bytes earlier. -/
theorem answer_laterOutcome (s : State) (u n : Nat) (o : ConsumeOutcome) :
    answer s u (laterOutcome n o) =
      { answer s u o with reply := laterReply n (answer s u o).reply } := by
  cases o <;> rfl

/-! ### Two chunks (R159) -/

/-- What the bytes `x` do to a legal open unit, whatever follows them in the chunk: they are all taken and
the unit is still legal and open, or the unit completes within them and the rest is left (R156). -/
theorem consumeLoop_append {cfg : Cfg} (x : List Byte) {d : Decoder} (h : d.Inv cfg)
    (hc : d.complete = false) (i : Nat) :
    (∃ e, e.Inv cfg ∧ e.complete = false ∧
      ∀ y, consumeLoop cfg d (x ++ y) i = consumeLoop cfg e y (i + x.length)) ∨
    (∃ o, o.dec.complete = true ∧ ∀ y, consumeLoop cfg d (x ++ y) i = some o) := by
  induction x generalizing d i with
  | nil => exact .inl ⟨d, h, hc, fun _ => rfl⟩
  | cons b x ih =>
    obtain ⟨o, ho, hinv, hmore⟩ := dstep_inv h hc b (i + 1)
    simp only [List.cons_append, consumeLoop_cons, ho]
    cases o with
    | more d' =>
      simpa only [loopNext_more, ByteOutcome.dec_more, List.length_cons, Nat.add_assoc, Nat.add_comm 1] using
        ih hinv (complete_of_more hmore rfl) (i + 1)
    | doneOk d' => exact .inr ⟨.returned d' (i + 1), by simpa using hmore, fun _ => rfl⟩
    | doneErr d' e => exact .inr ⟨.raised d' e, by simpa using hmore, fun _ => rfl⟩

/-- Settles O30: either `x` completes the unit and `y` is not looked at, or `y` goes on from the unit that
`x` leaves, with the cursor `x`'s length further. -/
theorem chunkingInvariance : Obligations.ChunkingInvariance := by
  intro s s1 u d e x y hs hu hc hexec he
  change consumeAt s u x = .next s1 at hexec
  rcases consumeLoop_append x (hs.units u d hu) hc 0 with ⟨e', hinv, hopen, hloop⟩ | ⟨o, hdone, hloop⟩
  · have hx : consumeLoop s.cfg d x 0 = some (.returned e' x.length) := by simpa using hloop []
    rw [consumeAt_of_loop hu hc hx] at hexec
    obtain rfl := Host.Outcome.next.inj hexec
    obtain rfl : e' = e := by simpa using he
    refine ⟨fun hcomplete => by simp [hopen] at hcomplete, fun _ => ?_⟩
    obtain ⟨o, ho, -⟩ := consumeLoop_inv y hinv hopen 0
    have hxy : consumeLoop s.cfg d (x ++ y) 0 = some (laterOutcome x.length o) := by
      rw [hloop, Nat.zero_add, ← Nat.add_zero x.length, consumeLoop_add, ho]
      rfl
    refine ⟨answer s u o, ?_, ?_⟩
    · exact (consumeAt_of_loop he hopen ho).trans (by rw [answer_answer])
    · exact (consumeAt_of_loop hu hc hxy).trans (by rw [answer_laterOutcome])
  · have hx : consumeLoop s.cfg d x 0 = some o := by simpa using hloop []
    rw [consumeAt_of_loop hu hc hx] at hexec
    obtain rfl := Host.Outcome.next.inj hexec
    obtain rfl : o.dec = e := by simpa using he
    exact ⟨fun _ => consumeAt_of_loop hu hc (hloop y), fun hopen => by simp [hdone] at hopen⟩

/-! ### Noise before a frame (R160) -/

/-- The wire form ENC returns, at a fresh unit of its frame type: one VALID unit, whatever the cursor is and
whatever follows. -/
theorem consumeLoop_encoded {cfg : Cfg} {cmd : Byte} {a : EncOperands} {w : List Byte}
    (hok : encodeFrame cfg cmd a = .ok w) :
    ∃ d, d.status = some .valid ∧
      ∀ l i, consumeLoop cfg (Decoder.fresh a.ft) (w ++ l) i = some (.returned d (i + w.length)) := by
  obtain ⟨hk, hL, rfl⟩ := encodeFrame_ok.mp hok
  rw [encLength_eq_frameLength] at hL
  rw [encBuffer_eq_frameRest]
  exact ⟨_, rfl, fun l i => consumeLoop_validFrame a.addr a.id hk hL l i⟩

/-- Bytes without START before a chunk that finds the buffer empty: the same answer, with their number
added to the count. -/
theorem consumeAt_noise {s : State} {u : Nat} {d : Decoder} {g x : List Byte} {o : ConsumeOutcome}
    (hu : s.unit u = some d) (hc : d.complete = false) (hb : d.buf = []) (hg : s.cfg.start ∉ g)
    (ho : consumeLoop s.cfg d x 0 = some o) :
    consumeAt s u (g ++ x) = .next (answer s u (laterOutcome g.length o)) := by
  refine consumeAt_of_loop hu hc ?_
  rw [consumeLoop_noise hb hg, Nat.add_comm, consumeLoop_add, ho]
  rfl

/-- Settles O32: the frame, with the bytes after it, and any chunk that begins with START are chunks at the
fresh unit, and noise before a chunk there only adds to its count. -/
theorem noiseBeforeAFrameIsIgnored : Obligations.NoiseBeforeAFrameIsIgnored := by
  intro s t u cmd a w g later henc hw hu hg
  obtain ⟨hok, -⟩ := encAt_returned henc hw
  obtain ⟨d, hvalid, hloop⟩ := consumeLoop_encoded hok
  refine ⟨d, ?_, hvalid, ?_, fun x => ?_⟩
  · have hframe : consumeLoop s.cfg (Decoder.fresh a.ft) w 0 = some (.returned d w.length) := by
      simpa using hloop [] 0
    exact consumeAt_of_loop hu rfl hframe
  · rw [List.append_assoc]
    have hframe := hloop later 0
    rw [Nat.zero_add] at hframe
    exact consumeAt_noise hu rfl rfl hg hframe
  · obtain ⟨o, ho, -⟩ := consumeLoop_inv (s.cfg.start :: x) (fresh_inv s.cfg a.ft) rfl 0
    refine ⟨answer s u o, consumeAt_of_loop hu rfl ho, ?_⟩
    rw [← answer_laterOutcome]
    exact consumeAt_noise hu rfl rfl hg ho

end Sys2Proof.Proofs.Chunking
end

section
/-! PROOFS. The accessors of a decoder unit (44_decoder_decode.md section 3): the port each query goes
through and the register it reads, and from them rules R178, R179 and R185. -/

namespace Sys2Proof.Proofs.Accessors

open Sys2Proof Sys2Proof.Machine

/-! ### The queries as ports that never answer NotComplete -/

theorem exec_isComplete (u : Nat) (s : State) :
    exec (.isComplete u) s = queryAt s u fun d => .bool d.complete := rfl

theorem exec_isValid (u : Nat) (s : State) :
    exec (.isValid u) s = queryAt s u fun d => .bool d.fullyValid := rfl

theorem exec_getFrameType (u : Nat) (s : State) :
    exec (.getFrameType u) s = queryAt s u fun d => .frameType d.ft := rfl

/-- The predicate of IS_VALID in the words of R178. -/
theorem fullyValid_eq (d : Decoder) :
    d.fullyValid = (d.complete && d.crcOk && decide (d.fault = .none)) := rfl

/-- Settles O38: each query goes through the port that answers its register on any instance, and IS_VALID's
register is the combined predicate of R178. -/
theorem queriesAnswerInEveryStatus : Obligations.QueriesAnswerInEveryStatus := by
  intro s u d hu
  refine ⟨?complete, ?valid, ?frameType⟩
  case complete => rw [exec_isComplete, queryAt_eq hu]
  case valid => rw [exec_isValid, queryAt_eq hu, fullyValid_eq]
  case frameType => rw [exec_getFrameType, queryAt_eq hu]

end Sys2Proof.Proofs.Accessors
end

section
/-! PROOFS. Byte words (30_encoding.md section 3): what a word must be for the decoder to read it, what the
encoder writes, and from them that decode and encode are inverse to each other, and what a step does with
each request of the host. -/

namespace Sys2Proof.Proofs.Words

open Sys2Proof Sys2Proof.Machine Sys2Proof.Proofs.Encoder

/-! ### The command rows of the table (R80, R84) -/

section Rows

variable (cfg : Cfg) (c : Byte) (f : CommandForm)

/-- The row of a command byte has that command byte. -/
@[simp] theorem commandByte_commandRow : (commandRow cfg c f).commandByte cfg = some c := by
  unfold commandRow
  split_ifs <;> simp_all [Instr.commandByte]

@[simp] theorem form_commandRow : (commandRow cfg c f).form = some f := by
  unfold commandRow
  split_ifs <;> rfl

/-- Every byte that reaches the last two rows is in no set that a row before them names. -/
theorem wf_commandRow : (commandRow cfg c f).wf cfg = true := by
  unfold commandRow
  split_ifs <;> simp_all [Instr.wf, extraIsMember, otherIsUnassigned, isKnown, mem_named]

end Rows

/-- A member of CMD_EXTRA reaches the row EXTRA: it is none of the five named codes (R7). -/
theorem commandRow_extra {cfg : Cfg} {c : Byte} (h : c ∈ cfg.cmdExtra) (f : CommandForm) :
    commandRow cfg c f = .extra c f := by
  have hn := extra_not_named h
  simp only [mem_named, not_or] at hn
  obtain ⟨hr, hw, hlw, hrs, hlr⟩ := hn
  rw [commandRow, if_neg hr, if_neg hw, if_neg hlw, if_neg hrs, if_neg hlr, if_pos h]

/-- A byte outside KNOWN reaches the last two rows. -/
theorem commandRow_unknown {cfg : Cfg} {c : Byte} (h : isKnown cfg c = false) (f : CommandForm) :
    commandRow cfg c f = if c = cfg.cmdNone then .sentinel f else .otherByte c f := by
  simp only [isKnown, Bool.or_eq_false_iff, decide_eq_false_iff_not, mem_named, not_or] at h
  obtain ⟨⟨hr, hw, hlw, hrs, hlr⟩, hx⟩ := h
  rw [commandRow, if_neg hr, if_neg hw, if_neg hlw, if_neg hrs, if_neg hlr, if_neg hx]

/-- A well-formed wire-command instruction is the row of its own command byte: the codes of a configuration
are different bytes (R7). -/
theorem commandRow_of_wf {cfg : Cfg} {i : Instr} {c : Byte} {f : CommandForm} (hwf : i.wf cfg = true)
    (hform : i.form = some f) (hbyte : i.commandByte cfg = some c) : commandRow cfg c f = i := by
  obtain ⟨⟨hwr, hlwr, hrsr, hlrr⟩, ⟨hwlw, hwlr⟩, hrslw, hrslr⟩ := named_ne cfg
  obtain ⟨-, hnodup, -⟩ := cfg.valid
  simp only [Params.named, List.nodup_cons, List.mem_cons, not_or] at hnodup
  obtain ⟨-, ⟨-, hwrs, -⟩, ⟨-, hlwlr, -⟩, -⟩ := hnodup
  cases i <;> cases hform <;> cases hbyte
  case read => rw [commandRow, if_pos rfl]
  case write => rw [commandRow, if_neg hwr, if_pos rfl]
  case longWrite => rw [commandRow, if_neg hlwr, if_neg hwlw.symm, if_pos rfl]
  case response => rw [commandRow, if_neg hrsr, if_neg (Ne.symm hwrs), if_neg hrslw, if_pos rfl]
  case longResponse =>
    rw [commandRow, if_neg hlrr, if_neg hwlr.symm, if_neg (Ne.symm hlwlr), if_neg hrslr.symm, if_pos rfl]
  case extra =>
    have hx : c ∈ cfg.cmdExtra := by simpa [Instr.wf, extraIsMember, otherIsUnassigned] using hwf
    exact commandRow_extra hx f
  case sentinel => rw [commandRow_unknown (isKnown_cmdNone cfg), if_pos rfl]
  case otherByte =>
    obtain ⟨hk, hne⟩ : isKnown cfg c = false ∧ c ≠ cfg.cmdNone := by
      simpa [Instr.wf, extraIsMember, otherIsUnassigned] using hwf
    rw [commandRow_unknown hk, if_neg hne]

/-! ### What encode writes and decode reads -/

/-- The word of an arriving frame is its command byte and its body. -/
theorem encode_recv {cfg : Cfg} {i : Instr} {c : Byte} {u : Nat} {body : List Byte}
    (hform : i.form = some (.recv u body)) (hbyte : i.commandByte cfg = some c) :
    encode cfg i = some (u, c :: body) := by
  cases i <;> cases hform <;> cases hbyte <;> rfl

/-- An arriving frame has a byte word unless its command byte is the value of a token (log entry 11). -/
theorem hasWord_recv {cfg : Cfg} {i : Instr} {c : Byte} {u : Nat} {body : List Byte}
    (hform : i.form = some (.recv u body)) (hbyte : i.commandByte cfg = some c) :
    i.hasWord cfg = !isReserved cfg c := by
  cases i <;> cases hform <;> cases hbyte <;> rfl

/-- A command that is sent is a host transaction: it has no byte word (D1). -/
theorem hasWord_send {i : Instr} {a : EncOperands} (cfg : Cfg) (hform : i.form = some (.send a)) :
    i.hasWord cfg = false := by
  cases i <;> cases hform <;> rfl

/-- Of the rows that are no wire command only the tokens have a byte word. -/
theorem hasWord_of_no_form {cfg : Cfg} {i : Instr} (hform : i.form = none) (h : i.hasWord cfg = true) :
    (∃ u, i = .start u) ∨ ∃ u, i = .esc u := by
  cases i <;> cases hform
  case start u => exact .inl ⟨u, rfl⟩
  case esc u => exact .inr ⟨u, rfl⟩
  all_goals cases h

theorem commandByte_of_form {i : Instr} {f : CommandForm} (cfg : Cfg) (hform : i.form = some f) :
    ∃ c, i.commandByte cfg = some c := by
  cases i <;> cases hform <;> exact ⟨_, rfl⟩

/-- The instructions that have a byte word: the two tokens, and the arriving frames whose command byte is
the value of no token. -/
theorem hasWord_cases {cfg : Cfg} {i : Instr} (h : i.hasWord cfg = true) :
    (∃ u, i = .start u) ∨ (∃ u, i = .esc u) ∨
      ∃ u c body, i.form = some (.recv u body) ∧ i.commandByte cfg = some c ∧
        isReserved cfg c = false := by
  cases hform : i.form with
  | none =>
    obtain hs | he := hasWord_of_no_form hform h
    · exact .inl hs
    · exact .inr (.inl he)
  | some f =>
    cases f with
    | send a => simp [hasWord_send cfg hform] at h
    | recv u body =>
      obtain ⟨c, hbyte⟩ := commandByte_of_form cfg hform
      rw [hasWord_recv hform hbyte, Bool.not_eq_true'] at h
      exact .inr (.inr ⟨u, c, body, rfl, hbyte, h⟩)

section Decode

variable (cfg : Cfg) (u : Nat)

theorem decode_start : decode cfg u [cfg.start] = .ok (.start u) := by
  simp [decode]

theorem decode_esc : decode cfg u [cfg.esc] = .ok (.esc u) := by
  have hne : cfg.esc ≠ cfg.start := cfg.valid.1.symm
  simp [decode, hne]

/-- A byte that is no token is a command byte, and the bytes after it are the body. -/
theorem decode_command {c : Byte} (h : isReserved cfg c = false) (body : List Byte) :
    decode cfg u (c :: body) = .ok (commandRow cfg c (.recv u body)) := by
  obtain ⟨hs, he⟩ : c ≠ cfg.start ∧ c ≠ cfg.esc := by simpa [isReserved] using h
  simp only [decode.eq_def, if_neg hs, if_neg he]

/-- A token is one byte: with a byte after it the word is refused. -/
theorem decode_token_tail {b : Byte} (h : isReserved cfg b = true) (x : Byte) (tail : List Byte) :
    decode cfg u (b :: x :: tail) = .error .tokenWithTail := by
  rcases isReserved_eq_true.mp h with rfl | rfl
  · simp [decode]
  · simp [decode]

end Decode

/-- Everything decode reads: a token alone, or a command byte and the body after it. -/
theorem decode_ok_cases {cfg : Cfg} {u : Nat} {bytes : List Byte} {i : Instr}
    (h : decode cfg u bytes = .ok i) :
    (bytes = [cfg.start] ∧ i = .start u) ∨ (bytes = [cfg.esc] ∧ i = .esc u) ∨
      ∃ c body, bytes = c :: body ∧ isReserved cfg c = false ∧ i = commandRow cfg c (.recv u body) := by
  match bytes with
  | [] => cases h
  | b :: rest =>
    by_cases hres : isReserved cfg b = true
    · match rest with
      | x :: tail => rw [decode_token_tail cfg u hres] at h; cases h
      | [] =>
        rcases isReserved_eq_true.mp hres with rfl | rfl
        · rw [decode_start] at h
          exact .inl ⟨rfl, (Except.ok.inj h).symm⟩
        · rw [decode_esc] at h
          exact .inr (.inl ⟨rfl, (Except.ok.inj h).symm⟩)
    · have hres : isReserved cfg b = false := by simpa using hres
      rw [decode_command cfg u hres] at h
      exact .inr (.inr ⟨b, rest, rfl, hres, (Except.ok.inj h).symm⟩)

/-! ### The obligations -/

/-- Settles O4: a token is read back as itself, a frame as the row of its command byte. -/
theorem decodeInvertsEncode : Obligations.DecodeInvertsEncode := by
  intro cfg i hwf hw
  obtain ⟨u, rfl⟩ | ⟨u, rfl⟩ | ⟨u, c, body, hform, hbyte, hres⟩ := hasWord_cases hw
  · exact ⟨u, [cfg.start], rfl, decode_start cfg u⟩
  · exact ⟨u, [cfg.esc], rfl, decode_esc cfg u⟩
  · refine ⟨u, c :: body, encode_recv hform hbyte, ?_⟩
    rw [decode_command cfg u hres, commandRow_of_wf hwf hform hbyte]

/-- Settles O5: in each of the three ways a word is read, the instruction's word is that word. -/
theorem encodeInvertsDecode : Obligations.EncodeInvertsDecode := by
  intro cfg u bytes i hdecode
  obtain ⟨rfl, rfl⟩ | ⟨rfl, rfl⟩ | ⟨c, body, rfl, hres, rfl⟩ := decode_ok_cases hdecode
  · exact ⟨rfl, rfl, rfl⟩
  · exact ⟨rfl, rfl, rfl⟩
  · have hform := form_commandRow cfg c (.recv u body)
    have hbyte := commandByte_commandRow cfg c (.recv u body)
    exact ⟨encode_recv hform hbyte, wf_commandRow .., by simp [hasWord_recv hform hbyte, hres]⟩

/-! ### A step (R10) -/

section Step

variable {s : State} {rest : List Request}

theorem step_of_idle (h : s.pending = []) : step s = .next s := by
  simp [step, h]

/-- A request that stands for an instruction is issued after it is taken off the queue. -/
theorem step_of_fetch {r : Request} {i : Instr} (h : s.pending = r :: rest) (hf : fetch s.cfg r = .ok i) :
    step s = exec i { s with pending := rest } := by
  simp [step, h, hf]

theorem step_of_refused {r : Request} {e : Refusal} (h : s.pending = r :: rest)
    (hf : fetch s.cfg r = .error e) : step s = .refused e := by
  simp [step, h, hf]

theorem fetch_wire_ok {cfg : Cfg} {u : Nat} {bytes : List Byte} {i : Instr}
    (h : decode cfg u bytes = .ok i) : fetch cfg (.wire u bytes) = .ok i := by
  simp [fetch, h]

theorem fetch_wire_error {cfg : Cfg} {u : Nat} {bytes : List Byte} {e : DecodeError}
    (h : decode cfg u bytes = .error e) : fetch cfg (.wire u bytes) = .error (refusalOf e) := by
  simp [fetch, h]

/-- The three things a step can do: nothing, the next request's instruction, or a refusal. -/
theorem step_cases (s : State) :
    step s = .next s ∨ (∃ i rest, step s = exec i { s with pending := rest }) ∨
      ∃ e, step s = .refused e := by
  cases hp : s.pending with
  | nil => exact .inl (step_of_idle hp)
  | cons r rest =>
    cases hf : fetch s.cfg r with
    | ok i => exact .inr (.inl ⟨i, rest, step_of_fetch hp hf⟩)
    | error e => exact .inr (.inr ⟨e, step_of_refused hp hf⟩)

end Step

/-- Settles O2: a step is the fetch of its next request, a call is itself, and a byte word is what decode
reads. -/
theorem stepRunsTheFetchedInstruction : Obligations.StepRunsTheFetchedInstruction := by
  intro s rest
  refine ⟨step_of_idle, fun i hp => ?call, fun u bytes i hp hd => ?word, fun u hp => ?empty,
    fun u b x tail hres hp => ?tail⟩
  case call => exact step_of_fetch hp rfl
  case word => exact step_of_fetch hp (fetch_wire_ok hd)
  case empty => exact step_of_refused hp (fetch_wire_error (e := .noBytes) rfl)
  case tail => exact step_of_refused hp (fetch_wire_error (decode_token_tail s.cfg u hres x tail))

/-- Settles O3: five closed words, each decoded over the reset configuration. -/
theorem tableWordsDecodeToTheirRows : Obligations.TableWordsDecodeToTheirRows := by
  unfold Obligations.TableWordsDecodeToTheirRows
  decide

end Sys2Proof.Proofs.Words
end

section
/-! PROOFS. Every step keeps the invariants of R35 and none reads outside a buffer (R54), from what an
instruction can do to the units; and what the invariants say of a unit: the bounds of its buffer and payload
(R33, R24), and the answers of a unit that is complete and not valid (R183). -/

namespace Sys2Proof.Proofs.Legal

open Sys2Proof Sys2Proof.Machine Sys2Proof.Proofs.Effects Sys2Proof.Proofs.Bytes Sys2Proof.Proofs.Words

/-! ### Steps from legal states -/

/-- Legality is about the configuration and the units alone. -/
theorem stateInv_congr {s t : State} (hs : s.Inv) (hcfg : t.cfg = s.cfg) (hunits : t.units = s.units) :
    t.Inv where
  sorted := hunits ▸ hs.sorted
  units u d hu := by
    rw [hcfg]
    exact hs.units u d (by rwa [State.unit, hunits] at hu)

/-- The state in which CONSUME answers is legal when the unit its loop leaves is. -/
theorem answer_inv {s : State} {u : Nat} {o : ConsumeOutcome} (hs : s.Inv) (ho : o.dec.Inv s.cfg) :
    (answer s u o).Inv := by
  cases o with
  | returned d n => exact stateInv_congr (State.Inv_setUnit hs ho) rfl rfl
  | raised d e => exact stateInv_congr (State.Inv_setUnit hs ho) rfl rfl

/-- CONSUME answers in a legal state, whatever its unit holds, and leaves a legal state. -/
theorem consumeAt_inv {s : State} (hs : s.Inv) (u : Nat) (chunk : List Byte) :
    ∃ t, consumeAt s u chunk = .next t ∧ t.Inv := by
  cases hu : s.unit u with
  | none => exact ⟨_, onUnit_none hu _, stateInv_congr hs rfl rfl⟩
  | some d =>
    cases hc : d.complete with
    | true => exact ⟨_, consumeAt_complete hu hc chunk, stateInv_congr hs rfl rfl⟩
    | false =>
      obtain ⟨o, ho, hinv⟩ := consumeLoop_inv chunk (hs.units u d hu) hc 0
      exact ⟨_, consumeAt_of_loop hu hc ho, answer_inv hs hinv⟩

/-- Settles O43: what feeds a unit is CONSUME, NEW installs a legal unit, and what else there is changes the
reply alone. -/
theorem everyInstructionAnswersInLegalStates : Obligations.EveryInstructionAnswersInLegalStates := by
  intro s i hs
  cases effect s i with
  | feed v chunk _ hexec => exact hexec ▸ consumeAt_inv hs v chunk
  | renew v ft hi =>
    subst hi
    exact ⟨_, rfl, stateInv_congr (State.Inv_setUnit hs (fresh_inv s.cfg ft)) rfl rfl⟩
  | answer r _ hexec => exact ⟨_, hexec, stateInv_congr hs rfl rfl⟩

/-- Settles O42: a step does nothing, or runs an instruction in the legal state without its request. -/
theorem stepKeepsTheInvariants : Obligations.StepKeepsTheInvariants := by
  intro s t hs hstep
  obtain hidle | ⟨i, rest, hexec⟩ | ⟨e, href⟩ := step_cases s
  · obtain rfl := Host.Outcome.next.inj (hidle.symm.trans hstep)
    exact hs
  · obtain ⟨t', ht', hinv⟩ :=
      everyInstructionAnswersInLegalStates { s with pending := rest } i (stateInv_congr hs rfl rfl)
    obtain rfl := Host.Outcome.next.inj ((hexec.trans ht').symm.trans hstep)
    exact hinv
  · cases href.symm.trans hstep

/-- Settles O44: in a legal state the instruction a step runs answers a next state. -/
theorem legalStatesNeverReadOutside : Obligations.LegalStatesNeverReadOutside := by
  intro s hs
  obtain hidle | ⟨i, rest, hexec⟩ | ⟨e, href⟩ := step_cases s
  · rw [hidle]; trivial
  · obtain ⟨t, ht, -⟩ :=
      everyInstructionAnswersInLegalStates { s with pending := rest } i (stateInv_congr hs rfl rfl)
    rw [hexec, ht]; trivial
  · rw [href]; trivial

/-- Settles O1: the store of the reset state is empty. -/
theorem resetIsLegalAndHasNoInstance : Obligations.ResetIsLegalAndHasNoInstance := by
  have hnone : ∀ u, State.reset.unit u = none := fun _ => rfl
  exact ⟨⟨State.reset_unitsWf, fun u d hu => by simp [hnone] at hu⟩, hnone⟩

/-! ### The bounds of a legal unit (R33, R24) -/

/-- A known target in the words of R35 (c): the header it was read from. -/
theorem targetFits_iff {cfg : Cfg} {d : Decoder} {t : Nat} :
    d.targetFits cfg t ↔ 4 ≤ d.buf.length ∧ ∃ c L, readHeader cfg d.buf = some (c, L) ∧
      ftValue cfg d.ft ≤ L ∧ t = L - ftValue cfg d.ft + lengthWidth cfg c + 2 := by
  refine and_congr_right fun h4 => ?_
  obtain ⟨c, L, hr⟩ := readHeader_of_four cfg h4
  simp [hr]

/-- A target is at most what the widest length field can declare for the command in the buffer. -/
theorem target_le {cfg : Cfg} {d : Decoder} {t : Nat} (h : d.targetFits cfg t) :
    ∃ c, d.buf[1]? = some c ∧ t + 1 ≤ 256 ^ lengthWidth cfg c + lengthWidth cfg c + 2 := by
  obtain ⟨-, c, L, hr, -, rfl⟩ := targetFits_iff.mp h
  obtain ⟨-, hc, -⟩ := readHeader_eq_some.mp hr
  have hL := readHeader_lt hr
  exact ⟨c, hc, by omega⟩

/-- The buffer of a legal unit ends at its target plus 2, or the unit has no target and at most 4 bytes. -/
theorem buf_length_le_target {cfg : Cfg} {d : Decoder} (h : d.Inv cfg) :
    (d.target = none ∧ d.buf.length ≤ 4) ∨ ∃ t, d.target = some t ∧ d.buf.length ≤ t + 2 := by
  cases ht : d.target with
  | none =>
    refine .inl ⟨rfl, ?_⟩
    cases hc : d.complete with
    | true => exact (h.headerFault hc ht).2.le
    | false => exact (h.short hc ht).trans (by norm_num)
  | some t =>
    refine .inr ⟨t, rfl, ?_⟩
    cases hc : d.complete with
    | true => exact (h.full t hc ht).le
    | false => exact (h.waiting t hc ht).le

theorem buf_length_le {cfg : Cfg} {d : Decoder} (h : d.Inv cfg) : d.buf.length ≤ 65541 := by
  obtain ⟨-, h4⟩ | ⟨t, ht, hlen⟩ := buf_length_le_target h
  · omega
  · obtain ⟨c, -, hle⟩ := target_le (h.known t ht)
    rcases lengthWidth_cases cfg c with hW | hW <;> simp only [hW] at hle <;> omega

/-- A payload is what a whole buffer holds beside the fields around it (R58). -/
theorem data_length_le {cfg : Cfg} {d : Decoder} (h : d.Inv cfg) : d.data.length ≤ 65531 := by
  by_cases hv : d.status = some .valid
  · obtain ⟨c, hc, -, -, -, -, hdata, hfit⟩ := h.valid hv
    have hlen : d.data.length ≤ d.buf.length - 2 - (2 + lengthWidth cfg c + addrSize d.ft + 4) := by
      rw [hdata, List.length_take]
      exact Nat.min_le_left ..
    obtain ⟨-, h4⟩ | ⟨t, ht, hbuf⟩ := buf_length_le_target h
    · omega
    · obtain ⟨c', hc', hle⟩ := target_le (h.known t ht)
      obtain rfl : c = c' := Option.some.inj (hc.symm.trans hc')
      rcases lengthWidth_cases cfg c with hW | hW <;> simp only [hW] at hle hlen <;> omega
  · obtain ⟨-, -, -, hdata⟩ := h.notValid hv
    simp [hdata]

/-- Settles O45: the bounds of a legal unit, and R7's bound on the capacity. -/
theorem buffersNeverOverflow : Obligations.BuffersNeverOverflow := by
  intro s u d hs hu
  have hinv := hs.units u d hu
  have hcap : 65541 ≤ s.cfg.bufCap := by
    obtain ⟨-, -, -, -, -, -, -, hcap⟩ := s.cfg.valid
    exact hcap
  exact ⟨buf_length_le hinv, (buf_length_le hinv).trans hcap, data_length_le hinv⟩

end Sys2Proof.Proofs.Legal
end

section
/-! PROOFS. Whole frames arriving at a fresh unit (44_decoder_decode.md sections 1 and 2): a frame of a known
command is decoded to its fields, and a frame that fails a check ends in the error of the first check that
fails: checksum, command, body length (R210 (c)). -/

namespace Sys2Proof.Proofs.Received

open Sys2Proof Sys2Proof.Machine Sys2Proof.Proofs.Encoder Sys2Proof.Proofs.RoundTrip Sys2Proof.Proofs.Bytes

theorem wireForm_length (cfg : Cfg) (fr : List Byte) :
    (wireForm cfg fr).length = 1 + (stuff cfg fr).length := by
  rw [wireForm, List.length_cons, Nat.add_comm]

/-- A byte outside KNOWN has one length byte, since the long commands are known (R74). -/
theorem lengthWidth_unknown {cfg : Cfg} {c : Byte} (h : isKnown cfg c = false) : lengthWidth cfg c = 1 := by
  simp only [isKnown, Bool.or_eq_false_iff, decide_eq_false_iff_not, mem_named, not_or] at h
  obtain ⟨⟨-, -, hlw, -, hlr⟩, -⟩ := h
  exact lengthWidth_short hlw hlr

section Fresh

variable {s : State} {u : Nat} {ft : FrameType}

/-! ### A frame that passes every check -/

/-- A wire command whose code is known and has `W` length bytes decodes its frames. -/
theorem decodesFrame_of_known {form : CommandForm → Instr} {c : Byte} {W : Nat} (addr id : Word)
    (payload : List Byte)
    (hform : ∀ body, exec (form (.recv u body)) s = consumeAt s u (wireForm s.cfg (c :: body)))
    (hk : isKnown s.cfg c = true) (hW : lengthWidth s.cfg c = W) :
    DecodesFrame s form c W u ft addr id payload := by
  subst hW
  intro hu hL body
  have hloop := consumeLoop_validFrame addr id hk hL [] 0
  simp only [List.append_nil, Nat.zero_add, wireForm_length] at hloop
  exact (hform body).trans (consumeAt_of_loop hu rfl hloop)

/-! ### A frame that fails a check -/

/-- A frame whose check fails leaves its bytes in the buffer and raises the check's error. -/
theorem consumeAt_takeError {fr : List Byte} {b : Bool} {f : FaultReg} {err : CodecError} {n : Nat}
    (hu : s.unit u = some (Decoder.fresh ft))
    (hloop : consumeLoop s.cfg (Decoder.fresh ft) (wireForm s.cfg fr ++ []) 0 =
      loopNext s.cfg [] n (some (takeError { Decoder.holding s.cfg ft fr with crcOk := b } f err))) :
    consumeAt s u (wireForm s.cfg fr) = .next ((s.setUnit u
      (failedUnit ft (s.cfg.start :: fr) (some (fr.length - 1)) b f)).raises err) := by
  rw [List.append_nil] at hloop
  exact consumeAt_of_loop hu rfl hloop

/-- The target of a frame that declares its own bytes. -/
theorem frame_target (cfg : Cfg) (c : Byte) (L : Nat) (rest : List Byte) (rx : Half) :
    (c :: (be (lengthWidth cfg c) L ++ rest) ++ be 2 rx.toNat).length - 1 =
      rest.length + lengthWidth cfg c + 2 := by
  simp
  omega

variable {c : Byte} {rest : List Byte}

/-- A checksum field that differs from the checksum of the covered bytes (R172). -/
theorem consumeAt_mismatch {rx : Half} (hu : s.unit u = some (Decoder.fresh ft))
    (hL : ftValue s.cfg ft + rest.length < 256 ^ lengthWidth s.cfg c) :
    let pre := c :: (be (lengthWidth s.cfg c) (ftValue s.cfg ft + rest.length) ++ rest)
    rx ≠ checksum s.cfg.ck pre →
    consumeAt s u (wireForm s.cfg (pre ++ be 2 rx.toNat)) = .next ((s.setUnit u
      (failedUnit ft (s.cfg.start :: (pre ++ be 2 rx.toNat)) (some (rest.length + lengthWidth s.cfg c + 2))
        false .checksumMismatch)).raises
      (.checksumMismatch rx (checksum s.cfg.ck pre)
        (1 + (stuff s.cfg (pre ++ be 2 rx.toNat)).length))) := by
  intro pre hrx
  have hloop := consumeLoop_frame (rx := rx) hL [] 0
  simp only [pre] at hrx
  simp only [if_neg hrx] at hloop
  rw [← wireForm_length, ← frame_target, ← Nat.zero_add (wireForm _ _).length]
  exact consumeAt_takeError hu hloop

/-- A matching checksum and a command byte that is not known (R173). -/
theorem consumeAt_unknown (hu : s.unit u = some (Decoder.fresh ft))
    (hL : ftValue s.cfg ft + rest.length < 256 ^ lengthWidth s.cfg c) (hk : isKnown s.cfg c = false) :
    let pre := c :: (be (lengthWidth s.cfg c) (ftValue s.cfg ft + rest.length) ++ rest)
    consumeAt s u (wireForm s.cfg (pre ++ checksumField s.cfg pre)) = .next ((s.setUnit u
      (failedUnit ft (s.cfg.start :: (pre ++ checksumField s.cfg pre))
        (some (rest.length + lengthWidth s.cfg c + 2)) true .unknownCommand)).raises
      (.unknownCommand c (1 + (stuff s.cfg (pre ++ checksumField s.cfg pre)).length))) := by
  intro pre
  have hloop := consumeLoop_frame (rx := checksum s.cfg.ck pre) hL [] 0
  simp only [if_true, hk, Bool.false_eq_true, if_false, pre] at hloop
  rw [← wireForm_length, ← frame_target, ← Nat.zero_add (wireForm _ _).length]
  exact consumeAt_takeError hu hloop

/-- A matching checksum, a known command, and a body without room for the address and the id (R174). -/
theorem consumeAt_short (hu : s.unit u = some (Decoder.fresh ft))
    (hL : ftValue s.cfg ft + rest.length < 256 ^ lengthWidth s.cfg c) (hk : isKnown s.cfg c = true)
    (hshort : rest.length < addrSize ft + 4) :
    let pre := c :: (be (lengthWidth s.cfg c) (ftValue s.cfg ft + rest.length) ++ rest)
    consumeAt s u (wireForm s.cfg (pre ++ checksumField s.cfg pre)) = .next ((s.setUnit u
      (failedUnit ft (s.cfg.start :: (pre ++ checksumField s.cfg pre))
        (some (rest.length + lengthWidth s.cfg c + 2)) true .badLength)).raises
      (.badLength (ftValue s.cfg ft + rest.length)
        (1 + (stuff s.cfg (pre ++ checksumField s.cfg pre)).length))) := by
  intro pre
  have hloop := consumeLoop_frame (rx := checksum s.cfg.ck pre) hL [] 0
  simp only [if_true, hk, if_pos hshort, pre] at hloop
  rw [← wireForm_length, ← frame_target, ← Nat.zero_add (wireForm _ _).length]
  exact consumeAt_takeError hu hloop

end Fresh

/-! ### The obligations about whole frames -/

/-- Settles O33: each of the six rows names a known code with the width of its length field. -/
theorem receivedFramesAreDecoded : Obligations.ReceivedFramesAreDecoded := by
  intro s u ft addr id payload
  have hread : isKnown s.cfg s.cfg.cmdRead = true := isKnown_of_named (by simp [mem_named])
  have hwrite := carries_write s.cfg
  have hlongWrite := carries_longWrite s.cfg
  have hresponse := carries_response s.cfg
  have hlongResponse := carries_longResponse s.cfg
  refine ⟨?read, ?write, ?longWrite, ?response, ?longResponse, fun x hx => ?extra⟩
  case read => exact decodesFrame_of_known addr id payload (fun _ => rfl) hread (lengthWidth_read s.cfg)
  case write => exact decodesFrame_of_known addr id payload (fun _ => rfl) hwrite.known hwrite.width
  case longWrite =>
    exact decodesFrame_of_known addr id payload (fun _ => rfl) hlongWrite.known hlongWrite.width
  case response => exact decodesFrame_of_known addr id payload (fun _ => rfl) hresponse.known hresponse.width
  case longResponse =>
    exact decodesFrame_of_known addr id payload (fun _ => rfl) hlongResponse.known hlongResponse.width
  case extra =>
    have hextra := carries_extra hx
    exact decodesFrame_of_known addr id payload (fun _ => rfl) hextra.known hextra.width

/-- Settles O35: the checksum is the first check of the decode step. -/
theorem checksumMismatchIsReported : Obligations.ChecksumMismatchIsReported := by
  intro s u ft c rest rx W L pre hu hL hrx
  exact consumeAt_mismatch hu hL hrx

/-- Settles O36: the body length is the last check of the decode step. -/
theorem shortBodyIsReported : Obligations.ShortBodyIsReported := by
  intro s u ft c rest W L pre body hu hL hk hshort
  exact consumeAt_short hu hL hk hshort

/-- Settles O34: the sentinel and any_other_byte are unknown bytes, so `x` is the whole length field. -/
theorem receivedUnknownCommandsAreReported : Obligations.ReceivedUnknownCommandsAreReported := by
  intro s u ft x rest hu hx c i hci body
  obtain ⟨hk, hexec⟩ : isKnown s.cfg c = false ∧
      exec (i (.recv u body)) s = consumeAt s u (wireForm s.cfg (c :: body)) := by
    obtain ⟨rfl, rfl⟩ | ⟨rfl, hwf⟩ := hci
    · exact ⟨isKnown_cmdNone s.cfg, rfl⟩
    · simp only [Instr.wf, otherIsUnassigned, Bool.and_eq_true, Bool.not_eq_true'] at hwf
      obtain ⟨-, hk, -⟩ := hwf
      exact ⟨hk, rfl⟩
  have hW := lengthWidth_unknown hk
  have hbe : be 1 (ftValue s.cfg ft + rest.length) = [x] := by simp [be, ← hx]
  have hL : ftValue s.cfg ft + rest.length < 256 ^ lengthWidth s.cfg c := by
    rw [hW, ← hx]
    exact x.isLt
  have hunknown := consumeAt_unknown (rest := rest) hu hL hk
  simp only [hW, hbe] at hunknown
  exact hexec.trans hunknown

/-! ### One flipped bit (R120) -/

section Flip

variable (l : List Byte) (k j : Nat)

@[simp] theorem flipBit_length : (flipBit l k j).length = l.length := by
  simp [flipBit]

/-- A flip behind the bytes `p` leaves them. -/
theorem flipBit_append (p : List Byte) : flipBit (p ++ l) (p.length + k) j = p ++ flipBit l k j := by
  have hget : (p ++ l).getD (p.length + k) 0 = l.getD k 0 := by
    rw [List.getD_append_right _ _ _ _ (by omega), Nat.add_sub_cancel_left]
  rw [flipBit, hget, List.set_append_right _ _ (by omega), Nat.add_sub_cancel_left, flipBit]

end Flip

/-- A flip changes its byte, so it changes the sequence. -/
theorem flipBit_ne {l : List Byte} {k j : Nat} (hk : k < l.length) (hj : j < 8) : flipBit l k j ≠ l := by
  intro h
  have hbit : ∀ j < 8, (1#8 <<< j) ≠ 0#8 := by decide
  have hget : (flipBit l k j)[k]? = l[k]? := by rw [h]
  have hxor : l[k] ^^^ (1#8 <<< j) = l[k] := by simpa [flipBit, hk] using hget
  exact hbit j hj (by simpa using hxor)

/-- Any two bytes are the field of some checksum (R116). -/
theorem be_two_ube {l : List Byte} (h : l.length = 2) : be 2 (BitVec.ofNat 16 (ube l)).toNat = l := by
  match l with
  | [a, b] =>
    have ha := a.isLt
    have hb := b.isLt
    have hube : ube [a, b] = a.toNat * 256 + b.toNat := by simp [ube]
    simp only [hube, BitVec.toNat_ofNat, be]
    congr 1
    · exact BitVec.eq_of_toNat_eq (by simp; omega)
    · congr 1
      exact BitVec.eq_of_toNat_eq (by simp; omega)

/-- What a frame in CRC_FAILED shows the host. -/
theorem crcFailed_of_mismatch {s : State} {u : Nat} {ft : FrameType} {c : Byte} {rest : List Byte} {rx : Half}
    (hu : s.unit u = some (Decoder.fresh ft))
    (hL : ftValue s.cfg ft + rest.length < 256 ^ lengthWidth s.cfg c)
    (hrx : rx ≠ checksum s.cfg.ck
      (c :: (be (lengthWidth s.cfg c) (ftValue s.cfg ft + rest.length) ++ rest))) :
    ∃ t d, exec (.consume u (s.cfg.start :: stuff s.cfg
        (c :: (be (lengthWidth s.cfg c) (ftValue s.cfg ft + rest.length) ++ rest) ++ be 2 rx.toNat))) s =
        .next t ∧
      t.unit u = some d ∧ d.status = some .crcFailed ∧ d.complete = true ∧ d.fullyValid = false :=
  ⟨_, _, consumeAt_mismatch hu hL hrx, State.unit_setUnit_self .., rfl, rfl, rfl⟩

/-- Settles O37: a flip behind the length field gives another frame of the same declared length, which the
hypothesis on CK tells from the first; a flip in the checksum field gives another checksum. -/
theorem oneFlippedBitFailsTheChecksum : Obligations.OneFlippedBitFailsTheChecksum := by
  intro s u c ft addr id payload j W pre hu hL
  have hpre : ∀ rest, rest.length = (bodyBytes ft addr id payload).length →
      c :: (be W (ftValue s.cfg ft + rest.length) ++ rest) =
        (c :: be W (frameLength s.cfg ft payload)) ++ rest := by
    intro rest hrest
    rw [hrest, ← frameLength_eq_bodyBytes, List.cons_append]
  have hfit : ∀ rest : List Byte, rest.length = (bodyBytes ft addr id payload).length →
      ftValue s.cfg ft + rest.length < 256 ^ W := by
    intro rest hrest
    rwa [hrest, ← frameLength_eq_bodyBytes]
  have hpre0 : pre = (c :: be W (frameLength s.cfg ft payload)) ++ bodyBytes ft addr id payload := by
    simp only [pre, frameRest_eq_bodyBytes, List.cons_append]
  refine ⟨fun k hck hk1 hk2 hj => ?body, fun k hk hj => ?field⟩
  case body =>
    have hflip : flipBit pre k j = (c :: be W (frameLength s.cfg ft payload)) ++
        flipBit (bodyBytes ft addr id payload) (k - (1 + W)) j := by
      rw [hpre0, ← flipBit_append]
      congr 1
      simp
      omega
    have hne := (hck pre k j hk2 hj).symm
    rw [hflip, ← hpre _ (flipBit_length ..)] at hne ⊢
    exact crcFailed_of_mismatch hu (hfit _ (flipBit_length ..)) hne
  case field =>
    have hfield : (checksumField s.cfg pre).length = 2 := be_length ..
    have hrx := be_two_ube ((flipBit_length (checksumField s.cfg pre) k j).trans hfield)
    have hne : BitVec.ofNat 16 (ube (flipBit (checksumField s.cfg pre) k j)) ≠ checksum s.cfg.ck pre := by
      intro h
      have hsame : flipBit (checksumField s.cfg pre) k j = checksumField s.cfg pre := by
        rw [← hrx, h, checksumField]
      exact flipBit_ne (hk.trans_eq hfield.symm) hj hsame
    rw [← hrx]
    have hpre1 := hpre0.trans (hpre _ rfl).symm
    rw [hpre1] at hne ⊢
    exact crcFailed_of_mismatch hu (hfit _ rfl) hne

end Sys2Proof.Proofs.Received
end

section
/-! PROOFS. ENC in the words of its common algorithm (R127 to R133): the wire form, the refusal of a length
that does not fit, and the sizes of what it returns (R86). -/

namespace Sys2Proof.Proofs.Sizes

open Sys2Proof Sys2Proof.Machine Sys2Proof.Proofs.Encoder

theorem effPayload_eq (cfg : Cfg) (cmd : Byte) (a : EncOperands) :
    effPayload cfg cmd a = if cmd = cfg.cmdRead then [] else a.payload := rfl

/-- The width of the length field in the words of R74. -/
theorem lengthWidth_eq (cfg : Cfg) (c : Byte) :
    lengthWidth cfg c = if c = cfg.cmdLongWrite ∨ c = cfg.cmdLongResponse then 2 else 1 := by
  simp [lengthWidth, isLong]

/-- Settles O10: the outcome of ENC for a length that fits, at the width and the payload of the command. -/
theorem encReturnsTheWireForm : Obligations.EncReturnsTheWireForm := by
  intro s cmd a hk P W pre hL
  exact encAt_fits hk (lengthWidth_eq s.cfg cmd) (effPayload_eq s.cfg cmd a) hL

/-- Settles O11: the outcome of ENC for a length that does not fit. -/
theorem encRefusesLengthsThatDoNotFit : Obligations.EncRefusesLengthsThatDoNotFit := by
  intro s cmd a hk P W hL
  exact encAt_overflow hk (lengthWidth_eq s.cfg cmd) (effPayload_eq s.cfg cmd a) hL

/-- The pre-stuffing form of a frame: command byte, length field, body, checksum (R70). -/
theorem withChecksum_encBuffer_length (cfg : Cfg) (cmd : Byte) (a : EncOperands) :
    (withChecksum cfg (encBuffer cfg cmd a)).length =
      1 + lengthWidth cfg cmd + addrSize a.ft + 4 + (effPayload cfg cmd a).length + 2 := by
  simp only [withChecksum, encBuffer_eq_frameRest, frameRest, List.length_append, List.length_cons, be_length,
    addressBytes_length]
  omega

/-- The wire form is START and the stuffed bytes, at most two for each (R103). -/
theorem wireForm_length_bounds (cfg : Cfg) (s : List Byte) :
    1 + s.length ≤ (wireForm cfg s).length ∧ (wireForm cfg s).length ≤ 1 + 2 * s.length := by
  obtain ⟨-, hlower, hupper⟩ := Escape.stuffLengthLaw cfg s
  rw [wireForm, List.length_cons]
  omega

/-- Settles O18: a declared length that fits its field bounds the payload. -/
theorem encodedFrameSizes : Obligations.EncodedFrameSizes := by
  intro s t cmd a w henc hw N size
  obtain ⟨hok, -⟩ := encAt_returned henc hw
  obtain ⟨-, hL, rfl⟩ := encodeFrame_ok.mp hok
  have hN : (effPayload s.cfg cmd a).length = N := by
    simp only [effPayload_eq, N]
    split <;> rfl
  have hsize : (withChecksum s.cfg (encBuffer s.cfg cmd a)).length = size := by
    rw [withChecksum_encBuffer_length, hN]
  have hbounds := wireForm_length_bounds s.cfg (withChecksum s.cfg (encBuffer s.cfg cmd a))
  rw [hsize] at hbounds
  rw [encLength_eq, hN] at hL
  have hlong : size ≤ 65540 := by
    rcases lengthWidth_cases s.cfg cmd with hW | hW <;> simp only [hW] at hL <;> simp only [size, hW] <;> omega
  have hshort : 8 ≤ size := by
    rcases lengthWidth_cases s.cfg cmd with hW | hW <;> simp only [size, hW] <;> omega
  exact ⟨hshort, hlong, hbounds⟩

end Sys2Proof.Proofs.Sizes
end

section
/-! PROOFS. Which unit an instruction drives and what it leaves unchanged (R62, R36, R39, R231), and what no
instruction but NEW does to a unit: shorten its buffer, rewrite a byte of it, or change its frame type (R33,
R27). -/

namespace Sys2Proof.Proofs.Frame

open Sys2Proof Sys2Proof.Machine Sys2Proof.Proofs.Encoder Sys2Proof.Proofs.Effects Sys2Proof.Proofs.Bytes

/-! ### The unit an instruction drives -/

theorem drivenUnit_of_feeds {u : Nat} {i : Instr} (h : feeds u i) : drivenUnit i = some u := by
  cases i <;> simp_all [feeds, drivenUnit]

theorem drivenUnit_of_renews {u : Nat} {i : Instr} (h : renews u i) : drivenUnit i = some u := by
  cases i <;> simp_all [renews, drivenUnit]

/-- A wire command that drives a unit is its frame arriving there, which is a port of the unit. -/
theorem commandAt_onUnit {s : State} {c : Byte} {f : CommandForm} {u : Nat} (h : formUnit f = some u) :
    ∃ k, commandAt s c f = onUnit s u k := by
  cases f with
  | send a => cases h
  | recv v body => cases h; exact ⟨_, rfl⟩

/-- Every instruction that drives a unit and is no NEW of it goes through the unit's port contract. -/
theorem exec_onUnit {s : State} {u : Nat} {i : Instr} (hdriven : drivenUnit i = some u)
    (hrenews : ¬ renews u i) : ∃ k, exec i s = onUnit s u k := by
  cases i with
  | read f => exact commandAt_onUnit hdriven
  | write f => exact commandAt_onUnit hdriven
  | longWrite f => exact commandAt_onUnit hdriven
  | response f => exact commandAt_onUnit hdriven
  | longResponse f => exact commandAt_onUnit hdriven
  | extra x f => exact commandAt_onUnit hdriven
  | sentinel f => exact commandAt_onUnit hdriven
  | otherByte b f => exact commandAt_onUnit hdriven
  | enc cmd a => cases hdriven
  | new v ft => exact absurd (Option.some.inj hdriven) hrenews
  | start v => cases hdriven; exact ⟨_, rfl⟩
  | esc v => cases hdriven; exact ⟨_, rfl⟩
  | consume v chunk => cases hdriven; exact ⟨_, rfl⟩
  | isComplete v => cases hdriven; exact ⟨_, rfl⟩
  | isValid v => cases hdriven; exact ⟨_, rfl⟩
  | getId v => cases hdriven; exact ⟨_, rfl⟩
  | getAddress v => cases hdriven; exact ⟨_, rfl⟩
  | getData v => cases hdriven; exact ⟨_, rfl⟩
  | getCommand v => cases hdriven; exact ⟨_, rfl⟩
  | getFrameType v => cases hdriven; exact ⟨_, rfl⟩

/-- Settles O20: the port contract refuses before anything else. -/
theorem everyPortButNewNeedsAnInstance : Obligations.EveryPortButNewNeedsAnInstance := by
  intro s u i hu hdriven hrenews
  obtain ⟨k, hexec⟩ := exec_onUnit (s := s) hdriven hrenews
  rw [hexec, onUnit_none hu]

/-- Settles O6: both sides are the same port by definition. -/
theorem wireRowsAreEncAndConsume : Obligations.WireRowsAreEncAndConsume := by
  intro s a u body
  refine ⟨fun p hp => ?named, fun x k hk => ?byValue, rfl, rfl⟩
  case named =>
    simp only [List.mem_cons, List.not_mem_nil, or_false] at hp
    rcases hp with rfl | rfl | rfl | rfl | rfl | rfl <;> exact ⟨rfl, rfl⟩
  case byValue =>
    simp only [List.mem_cons, List.not_mem_nil, or_false] at hk
    rcases hk with rfl | rfl <;> exact ⟨rfl, rfl⟩

/-- Settles O19: NEW writes the reset values to its unit. -/
theorem newInstallsTheResetValues : Obligations.NewInstallsTheResetValues := by
  intro s u ft
  exact ⟨_, rfl, State.unit_setUnit_self .., rfl, fun v hv => State.unit_setUnit_ne s hv _, rfl, rfl, rfl⟩

/-! ### What stays outside the driven unit -/

theorem consumeAt_cfg_pending {s t : State} {u : Nat} {chunk : List Byte}
    (h : consumeAt s u chunk = .next t) : t.cfg = s.cfg ∧ t.pending = s.pending := by
  obtain ⟨-, rfl⟩ | ⟨d, -, ⟨-, rfl⟩ | ⟨-, ⟨d', n, -, rfl⟩ | ⟨d', e, -, rfl⟩⟩⟩ := consumeAt_next h
  all_goals exact ⟨rfl, rfl⟩

/-- No instruction writes the configuration (R36) or the queue. -/
theorem exec_cfg_pending {s t : State} {i : Instr} (h : exec i s = .next t) :
    t.cfg = s.cfg ∧ t.pending = s.pending := by
  cases effect s i with
  | feed v chunk _ hexec => exact consumeAt_cfg_pending (hexec ▸ h)
  | renew v ft hi =>
    subst hi
    obtain rfl := Host.Outcome.next.inj h
    exact ⟨rfl, rfl⟩
  | answer r _ hexec =>
    obtain rfl := Host.Outcome.next.inj (hexec.symm.trans h)
    exact ⟨rfl, rfl⟩

/-- Settles O21: a unit the instruction does not drive is neither fed nor renewed. -/
theorem instructionsTouchOnlyTheirUnit : Obligations.InstructionsTouchOnlyTheirUnit := by
  intro s t i hexec
  obtain ⟨hcfg, hpending⟩ := exec_cfg_pending hexec
  exact ⟨hcfg, hpending, fun v hv => exec_unit_of_not_feeds (fun h => hv (drivenUnit_of_feeds h))
    (fun h => hv (drivenUnit_of_renews h)) hexec⟩

/-! ### The buffer is append-only (R33) -/

/-- `e` is `d` later in its life: the same frame type, and the buffer of `d` at the front of its own. -/
def Extends (d e : Decoder) : Prop :=
  d.buf <+: e.buf ∧ e.ft = d.ft

theorem Extends.of_eq {d e : Decoder} (hbuf : e.buf = d.buf) (hft : e.ft = d.ft) : Extends d e :=
  ⟨⟨[], by rw [hbuf, List.append_nil]⟩, hft⟩

theorem Extends.refl (d : Decoder) : Extends d d := .of_eq rfl rfl

theorem Extends.trans {d e f : Decoder} (h : Extends d e) (h' : Extends e f) : Extends d f :=
  ⟨h.1.trans h'.1, h'.2.trans h.2⟩

theorem Extends.append (d : Decoder) (b : Byte) : Extends d (d.append b) :=
  ⟨⟨[b], rfl⟩, rfl⟩

section Step

variable {cfg : Cfg} {d : Decoder} {i : Nat} {o : ByteOutcome}

theorem extends_of_decodeFields {c : Byte} {L : Nat} (h : decodeFields cfg d c L i = some o) :
    Extends d o.dec := by
  unfold decodeFields at h
  split at h
  · obtain rfl := Option.some.inj h
    exact .of_eq rfl rfl
  · simp only [Option.bind_eq_bind, Option.bind_eq_some_iff, Option.pure_def, Option.some.injEq] at h
    obtain ⟨a, -, id, -, p, -, rfl⟩ := h
    exact .of_eq rfl rfl

theorem extends_of_decodeCommand (h : decodeCommand cfg d i = some o) : Extends d o.dec := by
  unfold decodeCommand at h
  simp only [Option.bind_eq_bind, Option.bind_eq_some_iff] at h
  obtain ⟨c, -, h⟩ := h
  split at h
  · obtain ⟨⟨c', L⟩, -, h⟩ := Option.bind_eq_some_iff.mp h
    exact extends_of_decodeFields h
  · obtain rfl := Option.some.inj h
    exact .of_eq rfl rfl

theorem extends_of_decodeStep (h : decodeStep cfg d i = some o) : Extends d o.dec := by
  unfold decodeStep at h
  simp only [Option.bind_eq_bind, Option.bind_eq_some_iff] at h
  obtain ⟨rx, -, covered, -, h⟩ := h
  split at h
  · have hext := extends_of_decodeCommand h
    exact hext
  · obtain rfl := Option.some.inj h
    exact .of_eq rfl rfl

theorem extends_of_completionCheck (h : completionCheck cfg d i = some o) : Extends d o.dec := by
  unfold completionCheck at h
  split at h
  · obtain rfl := Option.some.inj h
    exact .refl d
  · split at h
    · have hext := extends_of_decodeStep h
      exact hext
    · obtain rfl := Option.some.inj h
      exact .refl d

theorem extends_of_afterAppend (h : afterAppend cfg d i = some o) : Extends d o.dec := by
  unfold afterAppend at h
  split at h
  · obtain ⟨⟨c, L⟩, -, h⟩ := Option.bind_eq_some_iff.mp h
    dsimp only at h
    split at h
    · obtain rfl := Option.some.inj h
      exact .of_eq rfl rfl
    · have hext := extends_of_completionCheck h
      exact hext
  · exact extends_of_completionCheck h

/-- A byte is appended or leaves the buffer as it is; what follows an append writes no buffer byte. -/
theorem extends_of_dstep {b : Byte} (h : dstep cfg d b i = some o) : Extends d o.dec := by
  unfold dstep at h
  split at h
  · obtain rfl := Option.some.inj h
    split
    · exact .append d cfg.start
    · exact .refl d
  · split at h
    · obtain rfl := Option.some.inj h
      exact .of_eq rfl rfl
    · obtain ⟨hbuf, hft⟩ := extends_of_afterAppend h
      exact ⟨List.IsPrefix.trans ⟨_, rfl⟩ hbuf, hft⟩

end Step

theorem extends_of_consumeLoop {cfg : Cfg} (l : List Byte) {d : Decoder} {i : Nat} {o : ConsumeOutcome}
    (h : consumeLoop cfg d l i = some o) : Extends d o.dec := by
  induction l generalizing d i with
  | nil =>
    obtain rfl := Option.some.inj h
    exact .refl d
  | cons b l ih =>
    rw [consumeLoop_cons] at h
    cases hstep : dstep cfg d b (i + 1) with
    | none => rw [hstep] at h; cases h
    | some o' =>
      have hext := extends_of_dstep hstep
      rw [hstep] at h
      cases o' with
      | more d' => exact hext.trans (ih h)
      | doneOk d' => obtain rfl := Option.some.inj h; exact hext
      | doneErr d' e => obtain rfl := Option.some.inj h; exact hext

/-- CONSUME leaves its unit as it is, or later in its life. -/
theorem consumeAt_extends {s t : State} {u : Nat} {d : Decoder} {chunk : List Byte}
    (hu : s.unit u = some d) (h : consumeAt s u chunk = .next t) :
    ∃ e, t.unit u = some e ∧ Extends d e := by
  obtain ⟨hnone, -⟩ | ⟨d', hd', ⟨-, rfl⟩ | ⟨-, ⟨e, n, hloop, rfl⟩ | ⟨e, err, hloop, rfl⟩⟩⟩ := consumeAt_next h
  · simp [hu] at hnone
  all_goals obtain rfl : d = d' := Option.some.inj (hu.symm.trans hd')
  · exact ⟨d, hu, .refl d⟩
  · exact ⟨e, State.unit_setUnit_self .., extends_of_consumeLoop chunk hloop⟩
  · exact ⟨e, State.unit_setUnit_self .., extends_of_consumeLoop chunk hloop⟩

/-- Settles O23: what feeds the unit is CONSUME, and what neither feeds nor renews it leaves it alone. -/
theorem bufferIsAppendOnly : Obligations.BufferIsAppendOnly := by
  intro s t u d i hu hrenews hexec
  by_cases hfeeds : feeds u i
  · cases effect s i with
    | feed v chunk hf heq =>
      obtain rfl := (hf u).mp hfeeds
      obtain ⟨e, he, hbuf, hft⟩ := consumeAt_extends hu (heq ▸ hexec)
      exact ⟨e, he, hbuf, hft⟩
    | renew v ft hi =>
      subst hi
      exact hfeeds.elim
    | answer r hf _ => exact absurd hfeeds (hf u)
  · exact ⟨d, (exec_unit_of_not_feeds hfeeds hrenews hexec).trans hu, Extends.refl d⟩

end Sys2Proof.Proofs.Frame
end

section
/-! PROOFS. The places in a frame at which a byte can arrive at a legal open unit (R148), what the per-byte
step does at each of them, and from these the transition table (R162), the fourth buffer byte (R152 to R154),
the count CONSUME answers (R157, R158), and how soon a frame ends (R161, R241). -/

namespace Sys2Proof.Proofs.Places

open Sys2Proof Sys2Proof.Machine Sys2Proof.Proofs.RoundTrip Sys2Proof.Proofs.Bytes Sys2Proof.Proofs.Received
  Sys2Proof.Proofs.Legal

/-! ### The places -/

/-- The byte `b` arriving inside a frame is appended, not dropped as an escape (R104). -/
structure Takes (cfg : Cfg) (d : Decoder) (b : Byte) : Prop where
  inFrame : d.buf ≠ []
  kept : d.esc = true ∨ b ≠ cfg.esc

/-- The unit right after `b` was appended. -/
def taken (d : Decoder) (b : Byte) : Decoder :=
  { d with buf := d.buf ++ [b], esc := false }

/-- `b` is the fourth buffer byte, with which the header holds command `c` and declared length `L`. -/
structure HeaderEnd (cfg : Cfg) (d : Decoder) (b c : Byte) (L : Nat) : Prop where
  takes : Takes cfg d b
  noTarget : d.target = none
  length : d.buf.length = 3
  header : readHeader cfg (d.buf ++ [b]) = some (c, L)

/-- `b` is the last byte of the frame whose header holds command `c` and declared length `L`. -/
structure FrameEnd (cfg : Cfg) (d : Decoder) (b c : Byte) (L : Nat) : Prop where
  takes : Takes cfg d b
  target : d.target = some (L - ftValue cfg d.ft + lengthWidth cfg c + 2)
  header : readHeader cfg (d.buf ++ [b]) = some (c, L)
  fits : ftValue cfg d.ft ≤ L
  length : d.buf.length + 1 = L - ftValue cfg d.ft + lengthWidth cfg c + 4

/-- The places at which a byte can arrive at a unit that still takes bytes. -/
inductive Place (cfg : Cfg) (d : Decoder) (b : Byte) : Prop
  | seek (hbuf : d.buf = [])
  | escape (hbuf : d.buf ≠ []) (he : d.esc = false) (hb : b = cfg.esc)
  | inside (htakes : Takes cfg d b) (h3 : d.buf.length ≠ 3)
      (hroom : ∀ t, d.target = some t → d.buf.length + 1 < t + 2)
  | headerEnd (c : Byte) (L : Nat) (hend : HeaderEnd cfg d b c L)
  | frameEnd (c : Byte) (L : Nat) (hend : FrameEnd cfg d b c L)

theorem takes_of_not_escape {cfg : Cfg} {d : Decoder} {b : Byte} (hbuf : d.buf ≠ [])
    (h : ¬ (d.esc = false ∧ b = cfg.esc)) : Takes cfg d b :=
  ⟨hbuf, by
    cases he : d.esc with
    | true => exact .inl rfl
    | false => exact .inr fun hb => h ⟨he, hb⟩⟩

section Legal

variable {cfg : Cfg} {d : Decoder} {b : Byte}

/-- With 3 bytes and no target, the next byte ends the header. -/
theorem exists_headerEnd (htakes : Takes cfg d b) (ht : d.target = none) (h3 : d.buf.length = 3) :
    ∃ c L, HeaderEnd cfg d b c L := by
  obtain ⟨c, L, hr⟩ := readHeader_of_four cfg (buf := d.buf ++ [b]) (by simp [h3])
  exact ⟨c, L, htakes, ht, h3, hr⟩

/-- One byte short of its target plus 2, the next byte ends the frame. -/
theorem exists_frameEnd {t : Nat} (h : d.Inv cfg) (htakes : Takes cfg d b) (ht : d.target = some t)
    (hlast : d.buf.length + 1 = t + 2) : ∃ c L, FrameEnd cfg d b c L := by
  obtain ⟨h4, c, L, hr, hL, rfl⟩ := targetFits_iff.mp (h.known t ht)
  exact ⟨c, L, htakes, ht, (readHeader_append cfg h4).trans hr, hL, hlast⟩

/-- Every byte at a legal open unit arrives at one of the places. -/
theorem place (h : d.Inv cfg) (hc : d.complete = false) (b : Byte) : Place cfg d b := by
  by_cases hbuf : d.buf = []
  · exact .seek hbuf
  by_cases hesc : d.esc = false ∧ b = cfg.esc
  · obtain ⟨he, hb⟩ := hesc
    exact .escape hbuf he hb
  have htakes := takes_of_not_escape hbuf hesc
  cases ht : d.target with
  | none =>
    by_cases h3 : d.buf.length = 3
    · obtain ⟨c, L, hend⟩ := exists_headerEnd htakes ht h3
      exact .headerEnd c L hend
    · exact .inside htakes h3 (by simp [ht])
  | some t =>
    have hwait := h.waiting t hc ht
    by_cases hlast : d.buf.length + 1 = t + 2
    · obtain ⟨c, L, hend⟩ := exists_frameEnd h htakes ht hlast
      exact .frameEnd c L hend
    · obtain ⟨h4, -⟩ := targetFits_iff.mp (h.known t ht)
      refine .inside htakes (by omega) fun t' ht' => ?_
      obtain rfl : t = t' := Option.some.inj (ht.symm.trans ht')
      omega

/-! ### The per-byte step at each place -/

/-- A byte that is taken is appended with `esc` cleared, before anything else is looked at (R148). -/
theorem dstep_takes (htakes : Takes cfg d b) (i : Nat) : dstep cfg d b i = afterAppend cfg (taken d b) i :=
  dstep_append htakes.inFrame htakes.kept i

theorem dstep_inside (htakes : Takes cfg d b) (h3 : d.buf.length ≠ 3)
    (hroom : ∀ t, d.target = some t → d.buf.length + 1 < t + 2) (i : Nat) :
    dstep cfg d b i = some (.more (taken d b)) :=
  dstep_append_more htakes.inFrame htakes.kept h3 (fun t ht => (hroom t ht).ne) i

/-- The fourth byte sets the target, or ends the unit with BadLength (R153, R154). -/
theorem dstep_headerEnd {c : Byte} {L : Nat} (hend : HeaderEnd cfg d b c L) (i : Nat) :
    dstep cfg d b i = some (
      if L < ftValue cfg d.ft then takeError (taken d b) .badLength (.badLength L i)
      else .more { taken d b with target := some (L - ftValue cfg d.ft + lengthWidth cfg c + 2) }) := by
  rw [dstep_takes hend.takes]
  exact afterAppend_header i (by simp [taken, hend.length]) hend.header

/-- How the last byte of a frame ends the unit (R210 (c)): in the first check that fails, or in the commit. -/
def frameOutcome (cfg : Cfg) (d : Decoder) (c : Byte) (L i : Nat) : ByteOutcome :=
  if receivedChecksum d.buf = checksum cfg.ck (coveredBytes d.buf) then
    if isKnown cfg c then
      if L < ftValue cfg d.ft + addrSize d.ft + 4 then
        takeError { d with crcOk := true } .badLength (.badLength L i)
      else .doneOk (committed cfg d c)
    else takeError { d with crcOk := true } .unknownCommand (.unknownCommand c i)
  else takeError d .checksumMismatch
    (.checksumMismatch (receivedChecksum d.buf) (checksum cfg.ck (coveredBytes d.buf)) i)

theorem dstep_frameEnd {c : Byte} {L : Nat} (hend : FrameEnd cfg d b c L) (i : Nat) :
    dstep cfg d b i = some (frameOutcome cfg { taken d b with complete := true } c L i) := by
  have hW := lengthWidth_cases cfg c
  have hlen : (taken d b).buf.length = L - ftValue cfg d.ft + lengthWidth cfg c + 4 := by
    simp [taken, hend.length]
  rw [dstep_takes hend.takes, afterAppend_complete (d := taken d b) i (by omega) hend.target hlen]
  exact decodeStep_eq i hend.header hend.fits hlen

end Legal

/-! ### What the last byte leaves -/

section FrameOutcome

variable (cfg : Cfg) (d : Decoder) (c : Byte) (L i : Nat)

/-- Whichever check decides, the unit is complete and its buffer and `esc` are not written. -/
theorem frameOutcome_dec (hc : d.complete = true) :
    let o := frameOutcome cfg d c L i
    o.dec.complete = true ∧ o.dec.buf = d.buf ∧ o.dec.esc = d.esc ∧ o.isMore = false := by
  unfold frameOutcome
  split_ifs
  · exact ⟨rfl, rfl, rfl, rfl⟩
  · exact ⟨hc, rfl, rfl, rfl⟩
  · exact ⟨rfl, rfl, rfl, rfl⟩
  · exact ⟨rfl, rfl, rfl, rfl⟩

theorem status_committed (hc : d.complete = true) (hf : d.fault = .none) :
    (committed cfg d c).status = some .valid := by
  simp [Decoder.status, committed, hc, hf]

/-- The four terminal statuses, in the order of the checks (R162). -/
theorem status_frameOutcome (hc : d.complete = true) (hf : d.fault = .none) :
    (frameOutcome cfg d c L i).dec.status =
      if receivedChecksum d.buf ≠ checksum cfg.ck (coveredBytes d.buf) then some .crcFailed
      else if isKnown cfg c = false then some .cmdFailed
      else if L < ftValue cfg d.ft + addrSize d.ft + 4 then some .lenFailed
      else some .valid := by
  unfold frameOutcome
  by_cases hck : receivedChecksum d.buf = checksum cfg.ck (coveredBytes d.buf)
  · rw [if_pos hck, if_neg (not_not.mpr hck)]
    cases hk : isKnown cfg c with
    | false => rfl
    | true =>
      have hknown : ¬ (true = false) := by simp
      rw [if_pos rfl, if_neg hknown]
      by_cases hL : L < ftValue cfg d.ft + addrSize d.ft + 4
      · rw [if_pos hL, if_pos hL]
        rfl
      · rw [if_neg hL, if_neg hL]
        exact status_committed cfg d c hc hf
  · rw [if_neg hck, if_pos hck]
    rfl

end FrameOutcome

/-! ### What CONSUME counts (R157, R158) -/

/-- The error is one that CONSUME raises and carries the count `n` (R158). -/
def CarriesCount (n : Nat) (err : CodecError) : Prop :=
  (∃ rx ck, err = .checksumMismatch rx ck n) ∨ (∃ c, err = .unknownCommand c n) ∨ ∃ L, err = .badLength L n

/-- A byte that ends a frame ends it VALID, or with an error that carries the cursor and a failed status. -/
def Ends (i : Nat) : ByteOutcome → Prop
  | .more _ => False
  | .doneOk e => e.complete = true ∧ e.status = some .valid
  | .doneErr e err => e.complete = true ∧ e.status ≠ some .valid ∧ CarriesCount i err

theorem ends_frameOutcome (cfg : Cfg) {d : Decoder} (c : Byte) (L i : Nat) (hc : d.complete = true)
    (hf : d.fault = .none) : Ends i (frameOutcome cfg d c L i) := by
  unfold frameOutcome
  split_ifs
  · exact ⟨rfl, by simp [Decoder.status], .inr (.inr ⟨L, rfl⟩)⟩
  · exact ⟨hc, status_committed cfg d c hc hf⟩
  · exact ⟨rfl, by simp [Decoder.status], .inr (.inl ⟨c, rfl⟩)⟩
  · exact ⟨rfl, by simp [Decoder.status], .inl ⟨_, _, rfl⟩⟩

/-- One byte at a legal open unit: the unit is still legal and open, or the byte ends the frame. -/
theorem dstep_goes_on_or_ends {cfg : Cfg} {d : Decoder} (h : d.Inv cfg) (hc : d.complete = false) (b : Byte)
    (i : Nat) :
    (∃ e, dstep cfg d b i = some (.more e) ∧ e.Inv cfg ∧ e.complete = false) ∨
      ∃ o, dstep cfg d b i = some o ∧ Ends i o := by
  obtain ⟨o, hstep, hinv, hmore⟩ := dstep_inv h hc b i
  have hgoes : ∀ e, dstep cfg d b i = some (.more e) →
      ∃ e, dstep cfg d b i = some (.more e) ∧ e.Inv cfg ∧ e.complete = false := by
    intro e he
    obtain rfl : o = .more e := Option.some.inj (hstep.symm.trans he)
    exact ⟨e, he, hinv, complete_of_more hmore rfl⟩
  cases place h hc b with
  | seek hbuf => exact .inl (hgoes _ (dstep_seek hbuf b i))
  | escape hbuf he hb => exact .inl (hgoes _ (hb ▸ dstep_esc hbuf he i))
  | inside htakes h3 hroom => exact .inl (hgoes _ (dstep_inside htakes h3 hroom i))
  | headerEnd c L hend =>
    have hstep' := dstep_headerEnd hend i
    by_cases hL : L < ftValue cfg d.ft
    · rw [if_pos hL] at hstep'
      exact .inr ⟨_, hstep', rfl, by simp [Decoder.status], .inr (.inr ⟨L, rfl⟩)⟩
    · rw [if_neg hL] at hstep'
      exact .inl (hgoes _ hstep')
  | frameEnd c L hend =>
    exact .inr ⟨_, dstep_frameEnd hend i, ends_frameOutcome cfg c L i rfl (h.noFault hc)⟩

/-- What CONSUME tells of a chunk whose last byte is at cursor `n`: how many bytes it took. -/
def Counted (n : Nat) : ConsumeOutcome → Prop
  | .returned e m => m ≤ n ∧ (e.complete = false → m = n) ∧ (e.complete = true → e.status = some .valid)
  | .raised e err => ∃ m, m ≤ n ∧ e.complete = true ∧ e.status ≠ some .valid ∧ CarriesCount m err

theorem consumeLoop_counted {cfg : Cfg} (l : List Byte) {d : Decoder} (h : d.Inv cfg)
    (hc : d.complete = false) (i : Nat) :
    ∃ o, consumeLoop cfg d l i = some o ∧ Counted (i + l.length) o := by
  induction l generalizing d i with
  | nil => exact ⟨_, rfl, le_rfl, fun _ => rfl, fun hdone => by simp [hc] at hdone⟩
  | cons b l ih =>
    have hlen : i + (b :: l).length = i + 1 + l.length := by rw [List.length_cons]; omega
    rw [consumeLoop_cons, hlen]
    obtain ⟨e, hstep, hinv, hopen⟩ | ⟨o, hstep, hends⟩ := dstep_goes_on_or_ends h hc b (i + 1)
    · rw [hstep]
      exact ih hinv hopen (i + 1)
    · rw [hstep]
      cases o with
      | more e => exact hends.elim
      | doneOk e =>
        obtain ⟨hdone, hvalid⟩ := hends
        exact ⟨_, rfl, by omega, fun hopen => by simp [hdone] at hopen, fun _ => hvalid⟩
      | doneErr e err =>
        obtain ⟨hdone, hfailed, hcount⟩ := hends
        exact ⟨_, rfl, i + 1, by omega, hdone, hfailed, hcount⟩

/-- Settles O28: the loop's outcome is the answer, and its count is bounded by induction on the chunk. -/
theorem consumeCountsWhatItTakes : Obligations.ConsumeCountsWhatItTakes := by
  intro s u d chunk hs hu hc
  obtain ⟨o, hloop, hcount⟩ := consumeLoop_counted chunk (hs.units u d hu) hc 0
  rw [Nat.zero_add] at hcount
  refine ⟨answer s u o, o.dec, consumeAt_of_loop hu hc hloop, answer_unit .., ?_⟩
  cases o with
  | returned e n => exact .inl ⟨n, rfl, hcount⟩
  | raised e err =>
    obtain ⟨n, hn, hdone, hfailed, herr⟩ := hcount
    exact .inr ⟨err, n, rfl, hn, hdone, hfailed, herr⟩

/-- Settles O29: the first half of chunking invariance (R159), for a chunk that completes the unit. -/
theorem leftoverBytesStayWithTheHost : Obligations.LeftoverBytesStayWithTheHost := by
  intro s t u d e chunk later hu hc hexec he hs hdone
  exact (Chunking.chunkingInvariance s t u d e chunk later hs hu hc hexec he).1 hdone

/-! ### How soon a frame ends (R161, R241) -/

/-- A legal open unit with a target misses at least one byte, and at most what a frame can hold. -/
theorem missing_bounds {cfg : Cfg} {d : Decoder} {T : Nat} (h : d.Inv cfg) (hc : d.complete = false)
    (ht : d.target = some T) : 0 < T + 2 - d.buf.length ∧ T + 2 - d.buf.length ≤ 65537 := by
  have hwait := h.waiting T hc ht
  obtain ⟨h4, -⟩ := h.known T ht
  obtain ⟨c, -, hle⟩ := target_le (h.known T ht)
  rcases lengthWidth_cases cfg c with hW | hW <;> simp only [hW] at hle <;> omega

/-- Every missing byte costs at most two input bytes, and one that is already escaped costs one: a chunk of
that many bytes completes the unit. -/
theorem consumeLoop_completes {cfg : Cfg} (l : List Byte) {d : Decoder} {T : Nat} (h : d.Inv cfg)
    (hc : d.complete = false) (ht : d.target = some T) (i : Nat)
    (hl : 2 * (T + 2 - d.buf.length) ≤ l.length + d.esc.toNat) :
    ∃ o, consumeLoop cfg d l i = some o ∧ o.dec.complete = true := by
  have hesc : d.esc.toNat ≤ 1 := Bool.toNat_le d.esc
  obtain ⟨hmiss, -⟩ := missing_bounds h hc ht
  induction l generalizing d i with
  | nil => simp only [List.length_nil] at hl; omega
  | cons b l ih =>
    obtain ⟨o, hstep, hinv, hmore⟩ := dstep_inv h hc b (i + 1)
    rw [List.length_cons] at hl
    rw [consumeLoop_cons, hstep]
    cases o with
    | doneOk e => exact ⟨_, rfl, by simpa using hmore⟩
    | doneErr e err => exact ⟨_, rfl, by simpa using hmore⟩
    | more e =>
      have hopen : e.complete = false := complete_of_more hmore rfl
      have hgo : e.target = some T → 2 * (T + 2 - e.buf.length) ≤ l.length + e.esc.toNat →
          ∃ o, consumeLoop cfg e l (i + 1) = some o ∧ o.dec.complete = true := fun ht' hl' =>
        ih hinv hopen ht' (i + 1) hl' (Bool.toNat_le e.esc) (missing_bounds hinv hopen ht').1
      cases place h hc b with
      | seek hbuf =>
        obtain ⟨-, hnone, -⟩ := h.empty hbuf
        simp [hnone] at ht
      | escape hbuf he hb =>
        subst hb
        rw [dstep_esc hbuf he] at hstep
        cases hstep
        refine hgo ht ?_
        simp only [he, Bool.toNat_false, Bool.toNat_true] at hl ⊢
        omega
      | inside htakes h3 hroom =>
        rw [dstep_inside htakes h3 hroom] at hstep
        cases hstep
        refine hgo ht ?_
        simp only [taken, List.length_append, List.length_cons, List.length_nil, Bool.toNat_false]
        omega
      | headerEnd c L hend => simp [hend.noTarget] at ht
      | frameEnd c L hend =>
        rw [dstep_frameEnd hend] at hstep
        obtain ⟨-, -, -, hends⟩ := frameOutcome_dec cfg { taken d b with complete := true } c L (i + 1) rfl
        rw [Option.some.inj hstep] at hends
        cases hends

/-- Settles O46: the bound on the missing bytes, and the induction over the chunk that pays for them. -/
theorem bodyEndsWithinTwiceTheMissingBytes : Obligations.BodyEndsWithinTwiceTheMissingBytes := by
  intro s u d T chunk hs hu hc ht
  have hinv := hs.units u d hu
  refine ⟨(missing_bounds hinv hc ht).2, fun hlen => ?_⟩
  obtain ⟨o, hloop, hdone⟩ := consumeLoop_completes chunk hinv hc ht 0 (by omega)
  exact ⟨answer s u o, o.dec, consumeAt_of_loop hu hc hloop, answer_unit .., hdone⟩

/-! ### The header (R152 to R154) -/

/-- Settles O25: START is the first buffer byte, and inside a frame it is no ESC. -/
theorem startTokenOpensOrIsData : Obligations.StartTokenOpensOrIsData := by
  intro s u d hu hc
  refine ⟨fun hb => consumeAt_byte hu hc (dstep_start hb 1), fun hb h3 ht => ?_⟩
  exact consumeAt_byte hu hc (dstep_append_more hb (.inr (start_ne_esc s.cfg)) h3 ht 1)

/-- A buffer of four bytes holds the command and the length field, whose second byte counts for a long
command alone. -/
theorem readHeader_four (cfg : Cfg) (b0 c x y : Byte) :
    readHeader cfg [b0, c, x, y] =
      some (c, if lengthWidth cfg c = 2 then x.toNat * 256 + y.toNat else x.toNat) := by
  rw [readHeader_eq_some]
  rcases lengthWidth_cases cfg c with hW | hW
  · simp [hW, ube]
  · simp [hW, ube]

/-- The first four bytes of a frame at a fresh unit: CONSUME takes the first three, and goes on from what the
header step does with the fourth. -/
theorem consumeLoop_header {cfg : Cfg} {ft : FrameType} {c x y : Byte} {L : Nat}
    (hr : readHeader cfg [cfg.start, c, x, y] = some (c, L)) (l : List Byte) :
    let d := { Decoder.fresh ft with buf := [cfg.start, c, x, y] }
    let n := (wireForm cfg [c, x, y]).length
    consumeLoop cfg (Decoder.fresh ft) (wireForm cfg [c, x, y] ++ l) 0 = loopNext cfg l n (some (
      if L < ftValue cfg ft then takeError d .badLength (.badLength L n)
      else .more { d with target := some (L - ftValue cfg ft + lengthWidth cfg c + 2) })) := by
  intro d n
  have hn : 0 + 1 + wireCost cfg c + wireCost cfg x + wireCost cfg y = n := by
    simp only [n, wireForm_length, stuff_cons_length, Escape.stuff_nil, List.length_nil]
    omega
  rw [wireForm, List.cons_append, consumeLoop_cons, dstep_start rfl, loopNext_more,
    consumeLoop_stuff_cons (by simp) rfl, afterAppend_more _ (by simp) (by simp), loopNext_more,
    consumeLoop_stuff_cons (by simp) rfl, afterAppend_more _ (by simp) (by simp), loopNext_more,
    consumeLoop_stuff_cons (by simp) rfl, hn]
  exact congrArg (loopNext cfg l n) (afterAppend_header (d := d) n rfl hr)

/-- Settles O27: the header step at the fourth byte, on both sides of the frame-type value. -/
theorem fourthByteSetsTheTarget : Obligations.FourthByteSetsTheTarget := by
  intro s u ft c x y later hu long W L wire
  have hW : lengthWidth s.cfg c = W := Sizes.lengthWidth_eq s.cfg c
  have hr : readHeader s.cfg [s.cfg.start, c, x, y] = some (c, L) := by
    rw [readHeader_four, hW]
    simp only [W, L]
    split_ifs <;> simp_all
  refine ⟨fun hL => ?_, fun hL => ?_⟩
  · have hloop := consumeLoop_header (ft := ft) hr []
    simp only [if_neg (Nat.not_lt.mpr hL), hW, List.append_nil] at hloop
    exact consumeAt_of_loop hu rfl hloop
  · have hloop := consumeLoop_header (ft := ft) hr later
    simp only [if_pos hL] at hloop
    exact consumeAt_of_loop hu rfl hloop

/-! ### The transition table (R162) -/

section Status

variable {d : Decoder}

theorem status_seek_iff (hc : d.complete = false) : d.status = some .seek ↔ d.buf = [] := by
  by_cases hb : d.buf = [] <;> by_cases ht : d.target = none <;> simp [Decoder.status, hc, hb, ht]

theorem status_header_iff (hc : d.complete = false) :
    d.status = some .header ↔ d.buf ≠ [] ∧ d.target = none := by
  by_cases hb : d.buf = [] <;> by_cases ht : d.target = none <;> simp [Decoder.status, hc, hb, ht]

theorem status_body_iff (hc : d.complete = false) :
    d.status = some .body ↔ d.buf ≠ [] ∧ ∃ T, d.target = some T := by
  rw [← Option.ne_none_iff_exists']
  by_cases hb : d.buf = [] <;> by_cases ht : d.target = none <;> simp [Decoder.status, hc, hb, ht]

/-- Writing `esc` and growing the buffer of a frame leave the status of an open unit. -/
theorem status_of_open_same {e : Decoder} (hc : d.complete = false) (hc' : e.complete = false)
    (hbuf : d.buf ≠ []) (hbuf' : e.buf ≠ []) (ht : e.target = d.target) : e.status = d.status := by
  simp [Decoder.status, hc, hc', hbuf, hbuf', ht]

theorem taken_buf_ne_nil (d : Decoder) (b : Byte) : (taken d b).buf ≠ [] := by
  simp [taken]

end Status

section Transitions

variable {cfg : Cfg} {d : Decoder} {b : Byte} {o : ByteOutcome} {i : Nat}

theorem step_seek_noise (hstep : dstep cfg d b i = some o) (hbuf : d.buf = []) (hb : b ≠ cfg.start) :
    o = .more d := by
  rw [dstep_seek hbuf, if_neg hb] at hstep
  exact (Option.some.inj hstep).symm

theorem step_seek_start (hstep : dstep cfg d b i = some o) (hbuf : d.buf = []) (hb : b = cfg.start) :
    o = .more { d with buf := [cfg.start] } := by
  rw [hb, dstep_start hbuf] at hstep
  exact (Option.some.inj hstep).symm

theorem step_escape (hstep : dstep cfg d b i = some o) (hbuf : d.buf ≠ []) (he : d.esc = false)
    (hb : b = cfg.esc) : o = .more { d with esc := true } := by
  rw [hb, dstep_esc hbuf he] at hstep
  exact (Option.some.inj hstep).symm

theorem step_inside (hstep : dstep cfg d b i = some o) (htakes : Takes cfg d b) (h3 : d.buf.length ≠ 3)
    (hroom : ∀ t, d.target = some t → d.buf.length + 1 < t + 2) : o = .more (taken d b) := by
  rw [dstep_inside htakes h3 hroom] at hstep
  exact (Option.some.inj hstep).symm

/-- Whatever place in the frame it is at, a byte that is taken is appended and clears `esc` (R151). -/
theorem step_takes (h : d.Inv cfg) (hc : d.complete = false) (hstep : dstep cfg d b i = some o)
    (htakes : Takes cfg d b) : o.dec.buf = d.buf ++ [b] ∧ o.dec.esc = false := by
  cases place h hc b with
  | seek hbuf => exact absurd hbuf htakes.inFrame
  | escape hbuf he hb => exact absurd htakes.kept (by simp [he, hb])
  | inside _ h3 hroom =>
    rw [step_inside hstep htakes h3 hroom]
    exact ⟨rfl, rfl⟩
  | headerEnd c L hend =>
    rw [dstep_headerEnd hend] at hstep
    obtain rfl := Option.some.inj hstep
    split <;> exact ⟨rfl, rfl⟩
  | frameEnd c L hend =>
    rw [dstep_frameEnd hend] at hstep
    obtain rfl := Option.some.inj hstep
    obtain ⟨-, hbuf, hesc, -⟩ := frameOutcome_dec cfg { taken d b with complete := true } c L i rfl
    exact ⟨hbuf, hesc⟩

/-- The fourth byte: BODY with its target, or LEN_FAILED, which a standard frame cannot reach since its
frame-type value is 0 (R154). -/
theorem step_fourth (hc : d.complete = false) (hstep : dstep cfg d b i = some o) {c : Byte} {L : Nat}
    (hend : HeaderEnd cfg d b c L) :
    if ftValue cfg d.ft ≤ L then
      o.dec.status = some .body ∧ o.dec.target = some (L - ftValue cfg d.ft + lengthWidth cfg c + 2)
    else o.dec.status = some .lenFailed ∧ d.ft = .plant := by
  rw [dstep_headerEnd hend] at hstep
  obtain rfl := Option.some.inj hstep
  by_cases hL : ftValue cfg d.ft ≤ L
  · rw [if_pos hL, if_neg (by omega)]
    exact ⟨(status_body_iff (by exact hc)).mpr ⟨taken_buf_ne_nil d b, _, rfl⟩, rfl⟩
  · rw [if_neg hL, if_pos (by omega)]
    refine ⟨rfl, ?_⟩
    cases hft : d.ft with
    | plant => rfl
    | standard => simp [hft, ftValue] at hL

/-- The last byte: the body the frame declares is what its buffer holds beside the other fields, so the four
terminal statuses are told apart by the buffer alone. -/
theorem step_last (h : d.Inv cfg) (hc : d.complete = false) (hstep : dstep cfg d b i = some o)
    (htakes : Takes cfg d b) {T : Nat} (ht : d.target = some T) (hlast : d.buf.length + 1 = T + 2) {c : Byte}
    (hcmd : o.dec.buf[1]? = some c) :
    o.dec.status =
      if receivedChecksum o.dec.buf ≠ checksum cfg.ck (coveredBytes o.dec.buf) then some .crcFailed
      else if isKnown cfg c = false then some .cmdFailed
      else if o.dec.buf.length - 4 - lengthWidth cfg c < addrSize d.ft + 4 then some .lenFailed
      else some .valid := by
  obtain ⟨hbuf, -⟩ := step_takes h hc hstep htakes
  obtain ⟨c', L, hend⟩ := exists_frameEnd h htakes ht hlast
  obtain ⟨-, hc', -⟩ := readHeader_eq_some.mp hend.header
  obtain rfl : c = c' := Option.some.inj (hcmd.symm.trans (hbuf ▸ hc'))
  have hbody : (d.buf ++ [b]).length - 4 - lengthWidth cfg c < addrSize d.ft + 4 ↔
      L < ftValue cfg d.ft + addrSize d.ft + 4 := by
    have hlen := hend.length
    have hfits := hend.fits
    rw [List.length_append, List.length_singleton, hlen]
    omega
  rw [hbuf]
  simp only [hbody]
  rw [dstep_frameEnd hend] at hstep
  obtain rfl := Option.some.inj hstep
  exact status_frameOutcome cfg { taken d b with complete := true } c L i rfl (h.noFault hc)

end Transitions

/-- One byte at an open unit answers with what the per-byte step leaves. -/
theorem consumeAt_one {s : State} {u : Nat} {d : Decoder} {b : Byte} {o : ByteOutcome}
    (hu : s.unit u = some d) (hc : d.complete = false) (hstep : dstep s.cfg d b 1 = some o) :
    ∃ t, consumeAt s u [b] = .next t ∧ t.unit u = some o.dec := by
  have hloop : consumeLoop s.cfg d [b] 0 = loopNext s.cfg [] 1 (some o) := by
    rw [consumeLoop_cons, hstep]
  cases o with
  | more e => exact ⟨_, consumeAt_of_loop hu hc hloop, answer_unit ..⟩
  | doneOk e => exact ⟨_, consumeAt_of_loop hu hc hloop, answer_unit ..⟩
  | doneErr e err => exact ⟨_, consumeAt_of_loop hu hc hloop, answer_unit ..⟩

/-- Settles O47: one transition of the per-byte step for each row of the table. -/
theorem statusTransitions : Obligations.StatusTransitions := by
  intro s u d b hs hu hc
  have hinv := hs.units u d hu
  obtain ⟨o, hstep, -⟩ := dstep_inv hinv hc b 1
  obtain ⟨t, hexec, ht⟩ := consumeAt_one hu hc hstep
  refine ⟨t, o.dec, hexec, ht, fun hseek hb => ?noise, fun hseek hb => ?start, fun hopen hb he => ?escape,
    fun hopen hkept => ?take⟩
  case noise =>
    rw [step_seek_noise hstep ((status_seek_iff hc).mp hseek) hb]
    exact hseek
  case start =>
    have hbuf := (status_seek_iff hc).mp hseek
    obtain ⟨-, htarget, -⟩ := hinv.empty hbuf
    rw [step_seek_start hstep hbuf hb]
    exact ⟨(status_header_iff (by exact hc)).mpr ⟨by simp, htarget⟩, rfl⟩
  case escape =>
    have hbuf := mt (status_seek_iff hc).mpr hopen
    rw [step_escape hstep hbuf he hb]
    exact ⟨status_of_open_same hc (by exact hc) hbuf (by exact hbuf) rfl, rfl, rfl⟩
  case take =>
    have hbuf := mt (status_seek_iff hc).mpr hopen
    have htakes : Takes s.cfg d b := ⟨hbuf, hkept.symm⟩
    obtain ⟨hbuf', hesc'⟩ := step_takes hinv hc hstep htakes
    refine ⟨hbuf', hesc', fun hheader hlen => ?header, fun hheader hlen c l hcb hlb => ?fourth,
      fun T hbody hT hlen => ?body, fun T c hbody hT hlen hcb => ?last⟩
    case header =>
      obtain ⟨-, htarget⟩ := (status_header_iff hc).mp hheader
      rw [step_inside hstep htakes (by omega) (by simp [htarget])]
      exact (status_of_open_same hc (by exact hc) hbuf (taken_buf_ne_nil d b) rfl).trans hheader
    case fourth =>
      intro L
      obtain ⟨-, htarget⟩ := (status_header_iff hc).mp hheader
      obtain ⟨x, hx⟩ : ∃ x, d.buf = [x, c, l] := by
        match hd : d.buf, hlen with
        | [x, y, z], _ => simp_all
      have hr : readHeader s.cfg (d.buf ++ [b]) = some (c, L) := by
        rw [hx]
        exact readHeader_four s.cfg x c l b
      exact step_fourth hc hstep ⟨htakes, htarget, hlen, hr⟩
    case body =>
      obtain ⟨h4, -⟩ := hinv.known T hT
      have hroom : ∀ t, d.target = some t → d.buf.length + 1 < t + 2 := by
        intro t ht
        obtain rfl : T = t := Option.some.inj (hT.symm.trans ht)
        exact hlen
      rw [step_inside hstep htakes (by omega) hroom]
      exact (status_of_open_same hc (by exact hc) hbuf (taken_buf_ne_nil d b) rfl).trans hbody
    case last => exact step_last hinv hc hstep htakes hT hlen hcb

end Sys2Proof.Proofs.Places
end

section
/-! PROOFS. The field accessors and the seven accessors as one kind of instruction (44_decoder_decode.md
section 3): what they answer (R183), and that they read their unit and nothing else (R57). -/

namespace Sys2Proof.Proofs.Fields

open Sys2Proof Sys2Proof.Machine Sys2Proof.Proofs.Accessors

/-! ### The field accessors as ports that wait for completion -/

theorem exec_getId (u : Nat) (s : State) : exec (.getId u) s = fieldAt s u fun d => .word d.id := rfl

theorem exec_getAddress (u : Nat) (s : State) :
    exec (.getAddress u) s = fieldAt s u fun d => .word d.addr := rfl

theorem exec_getData (u : Nat) (s : State) : exec (.getData u) s = fieldAt s u fun d => .bytes d.data := rfl

theorem exec_getCommand (u : Nat) (s : State) :
    exec (.getCommand u) s = fieldAt s u fun d => .command d.cmd := rfl

section Contract

variable {s : State} {u : Nat} {d : Decoder}

theorem fieldAt_complete (hu : s.unit u = some d) (hc : d.complete = true) (v : Decoder → Value) :
    fieldAt s u v = .next (s.returns (v d)) := by
  rw [fieldAt_eq hu, if_pos hc]

theorem fieldAt_open (hu : s.unit u = some d) (hc : d.complete = false) (v : Decoder → Value) :
    fieldAt s u v = .next (s.refuses .notComplete) := by
  rw [fieldAt_eq hu, if_neg (by simp [hc])]

end Contract

/-- Settles O39: each field accessor is the port of its register. -/
theorem fieldAccessorsFollowTheContract : Obligations.FieldAccessorsFollowTheContract := by
  intro s u d hu
  refine ⟨fun hc => ⟨?id, ?address, ?data, ?command⟩, fun hc i hi => ?notComplete⟩
  case id => rw [exec_getId, fieldAt_complete hu hc]
  case address => rw [exec_getAddress, fieldAt_complete hu hc]
  case data => rw [exec_getData, fieldAt_complete hu hc]
  case command => rw [exec_getCommand, fieldAt_complete hu hc]
  case notComplete =>
    simp only [List.mem_cons, List.not_mem_nil, or_false] at hi
    rcases hi with rfl | rfl | rfl | rfl <;> exact fieldAt_open hu hc _

/-- A unit is fully valid in the status VALID alone (R178). -/
theorem status_of_fullyValid {d : Decoder} (h : d.fullyValid = true) : d.status = some .valid := by
  simp only [fullyValid_eq, Bool.and_eq_true, decide_eq_true_eq] at h
  obtain ⟨⟨hc, hcrc⟩, hf⟩ := h
  simp [Decoder.status, hc, hcrc, hf]

/-- Settles O40: the registers of a unit that is not VALID hold their reset values (R35 (i)). -/
theorem failedUnitsAnswerZeroAndEmpty : Obligations.FailedUnitsAnswerZeroAndEmpty := by
  intro s u d hs hu hc hnot
  obtain ⟨hcmd, haddr, hid, hdata⟩ := (hs.units u d hu).notValid hnot
  have hinvalid : d.fullyValid = false := by
    cases h : d.fullyValid with
    | true => exact absurd (status_of_fullyValid h) hnot
    | false => rfl
  refine ⟨?id, ?address, ?data, ?command, ?valid⟩
  case id => rw [exec_getId, fieldAt_complete hu hc, hid]
  case address => rw [exec_getAddress, fieldAt_complete hu hc, haddr]
  case data => rw [exec_getData, fieldAt_complete hu hc, hdata]
  case command => rw [exec_getCommand, fieldAt_complete hu hc, hcmd]
  case valid => rw [exec_isValid, queryAt_eq hu, hinvalid]

/-! ### An accessor reads its unit alone (R57) -/

/-- `i` answers through the reply alone, as a function of what unit `u` holds. -/
def ReadsOnly (u : Nat) (i : Instr) : Prop :=
  ∃ r : Option Decoder → Reply, ∀ s, exec i s = .next { s with reply := r (s.unit u) }

theorem readsOnly_of_query {u : Nat} {i : Instr} {v : Decoder → Value}
    (h : ∀ s, exec i s = queryAt s u v) : ReadsOnly u i := by
  refine ⟨fun o => o.elim (.refused .noInstance) fun d => .returned (v d), fun s => ?_⟩
  rw [h]
  cases hu : s.unit u with
  | none => exact onUnit_none hu _
  | some d => exact queryAt_eq hu v

theorem readsOnly_of_field {u : Nat} {i : Instr} {v : Decoder → Value}
    (h : ∀ s, exec i s = fieldAt s u v) : ReadsOnly u i := by
  refine ⟨fun o => o.elim (.refused .noInstance) fun d =>
    if d.complete then .returned (v d) else .refused .notComplete, fun s => ?_⟩
  rw [h]
  cases hu : s.unit u with
  | none => exact onUnit_none hu _
  | some d =>
    cases hc : d.complete with
    | true => exact (fieldAt_complete hu hc v).trans (by simp [hc, State.returns])
    | false => exact (fieldAt_open hu hc v).trans (by simp [hc, State.refuses])

theorem readsOnly_of_accessor {u : Nat} {i : Instr} (h : i ∈ accessors u) : ReadsOnly u i := by
  simp only [accessors, List.mem_cons, List.not_mem_nil, or_false] at h
  rcases h with rfl | rfl | rfl | rfl | rfl | rfl | rfl
  · exact readsOnly_of_query (exec_isComplete u)
  · exact readsOnly_of_query (exec_isValid u)
  · exact readsOnly_of_field (exec_getId u)
  · exact readsOnly_of_field (exec_getAddress u)
  · exact readsOnly_of_field (exec_getData u)
  · exact readsOnly_of_field (exec_getCommand u)
  · exact readsOnly_of_query (exec_getFrameType u)

/-- Settles O41: the second answer is the same function of the same unit. -/
theorem accessorsAreIdempotent : Obligations.AccessorsAreIdempotent := by
  intro s u i hi
  obtain ⟨r, hexec⟩ := readsOnly_of_accessor hi
  exact ⟨r (s.unit u), hexec s, hexec { s with reply := r (s.unit u) }⟩

end Sys2Proof.Proofs.Fields
end
